-- ==== Sys2Proof/Word.lean ====
section
/-! DEFINITION. The word types of the device: register words, cursors, bytes, physical addresses, window offsets
(spec R8, R9, R12, R70). -/

namespace Sys2Proof

/-- A register value or an access word (R8, R100). -/
abbrev Word := BitVec 32

/-- A cursor value, an EEPROM word or a 16-bit descriptor field (R8, R9, R110). -/
abbrev Half := BitVec 16

/-- One byte of host memory or of a frame (R50). -/
abbrev Byte := BitVec 8

/-- A host physical address; its arithmetic is modulo 2^64 (R70, R85). -/
abbrev Addr := BitVec 64

/-- A byte offset into the 128 KB register window (R70, R100). -/
abbrev Off := BitVec 17

end Sys2Proof
end

