-- ==== Sys2Proof/Machine/Parts.lean ====
section
/-! DEFINITION. The plain data the machine's state is made of: the register file, the device agents' own state, frames,
the platform parameters, the agents' turns, HOST's program. No meaning stands here. -/

namespace Sys2Proof.Machine

/-- The two descriptor rings (R36). -/
inductive Ring where
  | rx
  | tx
deriving DecidableEq, Repr, Inhabited

/-- The five registers of one ring: xBAL, xBAH, xLEN, xDH, xDT (R36 to R39). -/
structure RingRegs where
  bal  : Word
  bah  : Word
  len  : Word
  head : Half
  tail : Half
deriving DecidableEq, Repr, Inhabited

/-- The stored registers of the register file (R22). STATUS and EERD are read from the agents' state, IMC holds none. -/
structure Regs where
  ctrl : Word
  icr  : Word
  ims  : Word
  rctl : Word
  tctl : Word
  rx   : RingRegs
  tx   : RingRegs
  mta  : Vector Word 128
deriving DecidableEq, Repr, Inhabited

/-- EEC's state (R46); `data` is `none` while unset. -/
structure Eec where
  busy : Bool
  done : Bool
  addr : Byte
  data : Option Half
deriving DecidableEq, Repr, Inhabited

/-- A frame being stored: rx_data, rx_err, rx_k, rx_j, rx_bsize, rx_free0 (R47), and `thr`, the minimum threshold latched with
them at accept (R146, R238, D44; log 23). -/
structure RxJob where
  data  : List Byte
  err   : Byte
  k     : Nat
  j     : Nat
  bsize : Nat
  free0 : Nat
  thr   : Nat
deriving DecidableEq, Repr, Inhabited

/-- rx_phase (R47): the frame's data exists only while Storing. -/
inductive RxPhase where
  | idle
  | storing (job : RxJob)
deriving DecidableEq, Repr, Inhabited

/-- A frame LINK delivers: its bytes, FCS included, and its receive error indications (R221). -/
structure Frame where
  bytes : List Byte
  err   : Byte
deriving DecidableEq, Repr, Inhabited

/-- The agents that read and write host memory by DMA (R13, R55). -/
inductive DmaAgent where
  | rxe
  | txe
deriving DecidableEq, Repr, Inhabited

/-- Why a frame was dropped (R221, R223, R224, R225, R231). -/
inductive DropReason where
  | disabled
  | filtered
  | runt
  | tooLong
  | long
  | error
  | noDescriptors
deriving DecidableEq, Repr, Inhabited

/-- The events `history` records (R55). -/
inductive Event where
  | transaction (off : Off) (write : Bool) (value : Word)
  | dmaRead (agent : DmaAgent) (addr : Addr) (bytes : List Byte)
  | dmaWrite (agent : DmaAgent) (addr : Addr) (bytes : List Byte)
  | frameIn (frame : Frame)
  | frameOut (bytes : List Byte)
  | drop (frame : Frame) (reason : DropReason)
deriving DecidableEq, Repr, Inhabited

/-- A transmit descriptor as TXE reads it (R113, R261); CSO, CSS and SPECIAL are ignored. -/
structure TxDesc where
  addr : Addr
  len  : Nat
  cmd  : Byte
  sta  : Byte
deriving DecidableEq, Repr, Inhabited

/-- The parameter DmaOK (R10, R84) as plain data: the ranges (address, length) the platform handed to the device, the accesses
(address, length) it admits one by one, or the rule `Config.dmaRule`, of which nothing is known. DESIGN CHOICE (log 7). -/
inductive DmaRule where
  | ranges (given : List (Addr × Nat))
  | accesses (admitted : List (Addr × Nat))
  | platformRule
deriving DecidableEq, Repr, Inhabited

/-- The parameters of R10 that are plain data. No step writes them. DESIGN CHOICE (log 6): they stand in the state so
that a statement about every state holds for every platform. -/
structure Platform where
  icrReadClears : Bool
  eepromPresent : Bool
  linkPartner   : Bool
  eeprom        : Vector Half 256
  dma           : DmaRule
deriving DecidableEq, Repr, Inhabited

/-- Whose step is next (R7, R14), with LINK's inputs (R221, R307). -/
inductive Turn where
  | host
  | eec
  | rxe
  | txe
  | linkUp
  | linkDown
  | frame (f : Frame)
  | otherCauses (v : Word)
deriving DecidableEq, Repr, Inhabited

/-- The unspecified reset contents of R340, arguments of `State.resetWith`. -/
structure ResetValues where
  ctrl  : Word
  icr   : Word
  tctl  : Word
  rdbal : Word
  rdbah : Word
  rdlen : Word
  tdbal : Word
  tdbah : Word
  tdlen : Word
  mta   : Vector Word 128
deriving DecidableEq, Repr, Inhabited

/-- The source's states of DeviceInit, host states (R346). -/
inductive InitPhase where
  | uninitialized
  | mmioResolved
  | addressLoaded
  | ringsConfigured
  | enabled
deriving DecidableEq, Repr, Inhabited

/-- HOST's own fatal stop (R322, R343, R344); no model fault. -/
inductive HostHalt where
  | configurationFault
deriving DecidableEq, Repr, Inhabited

/-- The widths of HOST's loads and stores in the host script: MEMR and MEMW of 8, 16, 32 and 64 bits (R130). -/
inductive MemWidth where
  | w8
  | w16
  | w32
  | w64
deriving DecidableEq, Repr, Inhabited

/-- A HOST variable of the host script (R130); eight of them, DESIGN CHOICE (log 15). -/
abbrev HostVar := Fin 8

/-- Expressions of the host script (R130). -/
inductive HostExpr where
  | lit (v : BitVec 64)
  | var (x : HostVar)
  | or  (a b : HostExpr)
  | and (a b : HostExpr)
  | shl (a : HostExpr) (k : Nat)
  | shr (a : HostExpr) (k : Nat)
deriving DecidableEq, Repr, Inhabited

/-- One operation of the host script (R130, R131, R343 to R346). -/
inductive HostOp where
  /-- the transaction (A, W) of R100 -/
  | transact (a w : Word)
  /-- `x := R32 REG` -/
  | readReg (x : HostVar) (off : Off)
  /-- `W32 REG, e` -/
  | writeReg (off : Off) (e : HostExpr)
  /-- `HostRead(addr, n)` -/
  | hostRead (addr : Addr) (n : Nat)
  /-- `HostWrite(addr, |v|, v)` -/
  | hostWrite (addr : Addr) (v : List Byte)
  /-- `x := MEMR<w> addr` -/
  | memr (x : HostVar) (w : MemWidth) (addr : HostExpr)
  /-- `MEMW<w> addr, e` -/
  | memw (w : MemWidth) (addr e : HostExpr)
  /-- `x := e` -/
  | assign (x : HostVar) (e : HostExpr)
  /-- `p ; q` -/
  | seq (p q : HostOp)
  /-- `if (x & m) != 0 { body }` -/
  | ifBits (x : HostVar) (m : HostExpr) (body : HostOp)
  /-- `until (x & m) != 0 { body }`, the body run at least once (R131) -/
  | untilBits (x : HostVar) (m : HostExpr) (body : HostOp)
  /-- the test of `untilBits` after a run of its body -/
  | untilTest (x : HostVar) (m : HostExpr) (body : HostOp)
  /-- steps 1 and 2 of the bring-up: choose the region (base, size) (R343, R344) -/
  | resolve (regions : List (Addr × Nat))
  /-- form the station address from three EEPROM words (R207) -/
  | stationAddress (w0 w1 w2 : HostVar)
  /-- mark the state of DeviceInit reached (R346) -/
  | reach (p : InitPhase)
  /-- `halt FaultName` (R130, R322) -/
  | halt (why : HostHalt)
deriving DecidableEq, Repr, Inhabited

/-- The agent HOST (R325): its program still to run, its variables, and what the bring-up leaves. -/
structure HostState where
  prog     : List HostOp
  vars     : Vector (BitVec 64) 8
  mmioBase : Option Addr
  mac      : Option (List Byte)
  init     : InitPhase
  halted   : Option HostHalt
deriving DecidableEq, Repr, Inhabited

end Sys2Proof.Machine
end

