-- ==== Sys2Proof/Config.lean ====
section
/-! DEFINITION. What is fixed for the machine: the record `RegMap` (R11, R104, R106), whose contents are in Machine/RegMap.lean,
and the free values, which are opaque constants of which nothing can be proved. -/

namespace Sys2Proof

/-- The place of a field in a descriptor: its first byte and its number of bytes (R110, R113). -/
structure DescField where
  off : Nat
  len : Nat
deriving DecidableEq, Repr

/-- Every register offset (R104), every field position (R106) and the descriptor layout (R2, R110 to R115). The position of a
register field is a mask on the register word; a field that is used as a number has its shift beside it. -/
structure RegMap where
  ctrl   : Off
  status : Off
  eerd   : Off
  icr    : Off
  ims    : Off
  imc    : Off
  rctl   : Off
  tctl   : Off
  rdbal  : Off
  rdbah  : Off
  rdlen  : Off
  rdh    : Off
  rdt    : Off
  tdbal  : Off
  tdbah  : Off
  tdlen  : Off
  tdh    : Off
  tdt    : Off
  mta    : Off
  ctrlSlu        : Word
  statusLu       : Word
  eerdStart      : Word
  eerdDone       : Word
  eerdAddr       : Word
  eerdAddrShift  : Nat
  eerdDataShift  : Nat
  icrTxdw        : Word
  icrTxqe        : Word
  icrLsc         : Word
  icrRxdmt0      : Word
  icrRxo         : Word
  icrRxt0        : Word
  icrNamed       : Word
  rctlEn         : Word
  rctlSbp        : Word
  rctlUpe        : Word
  rctlMpe        : Word
  rctlLpe        : Word
  rctlRdmts      : Word
  rctlRdmtsShift : Nat
  rctlMo         : Word
  rctlBam        : Word
  rctlBsize      : Word
  rctlBsizeShift : Nat
  rctlBsex       : Word
  rctlSecrc      : Word
  rctlModelled   : Word
  tctlEn         : Word
  tctlPsp        : Word
  tctlCt         : Word
  tctlCold       : Word
  tctlModelled   : Word
  dbalMask       : Word
  dlenMask       : Word
  /-- bits 31:20 of xDLEN, must be zero (R37) -/
  dlenMbz        : Word
  cursorMask     : Word
  /-- bytes of one descriptor (R9, R110, R113) -/
  descSize       : Nat
  /-- the buffer address, in both kinds of descriptor (R52, R110, R113) -/
  descBuf        : DescField
  /-- the write-back half of a receive descriptor (R82, R110) -/
  rxdBack        : DescField
  rxdLen         : DescField
  rxdCsum        : DescField
  rxdStatus      : DescField
  rxdErrors      : DescField
  rxdSpecial     : DescField
  rxdDd          : Byte
  rxdEop         : Byte
  /-- receive error bits written to memory: bits 3, 5 and 6 are forced to 0 (R112, R230) -/
  rxdErrMask     : Byte
  txdLen         : DescField
  txdCmd         : DescField
  txdSta         : DescField
  txdEop         : Byte
  txdIfcs        : Byte
  txdRs          : Byte
  /-- CMD bits outside EOP, IFCS, RS (R114, R262) -/
  txdUnmodelled  : Byte
  txdDd          : Byte
  /-- STA bits a report leaves as memory holds them (R115, R268) -/
  txdStaKeep     : Byte
deriving DecidableEq, Repr

namespace Config

/-- The platform after reset: every parameter open (R10; log 6). -/
opaque platform : Machine.Platform

/-- DmaOK of a platform of which nothing is known (R10, R84; log 7). -/
opaque dmaRule : Addr → Nat → Bool

/-- ExactFilter (R10, R223; log 8). Of the register state it sees the stored registers `Regs`; EERD, whose contents are EEC's, and
STATUS, whose LU is 1 whenever a frame arrives, are left out (DESIGN CHOICE, log 8). -/
opaque exactFilter : Machine.Frame → Machine.Regs → Bool

/-- Fcs: the four bytes appended on transmit (R10, R267; log 8). -/
opaque fcs : List Byte → Vector Byte 4

/-- What a byte of host memory held at reset (R50, R340; log 10). -/
opaque memReset : Nat → Byte

/-- The draws of the spec (R13; log 4), one for each value of the counter `State.draws`. -/
opaque draw32 : Nat → Word
opaque draw16 : Nat → Half
opaque drawByte : Nat → Byte

/-- The turn taken after the end of `State.turns` (R7, R14, R361; log 1). -/
opaque freeTurn : Nat → Machine.Turn

/-- The buffer size of the reserved encoding BSEX = 1, BSIZE = 00 and the threshold of the reserved RDMTS = 11, which no
write can select (R33, R34; log 12). -/
opaque bufSizeReserved : Nat
opaque thrReserved : Nat → Nat

/-- The bytes of a destination address that a frame shorter than six bytes does not have (R222; log 13). -/
opaque missingByte : Nat → Byte

end Config

end Sys2Proof
end

