-- ==== Sys2Proof/Machine/RegMap.lean ====
section
/-! DEFINITION. The contents of `RegMap` (R2, R11, R104, R106), the numbers of the spec's rules, and the reset contents the spec
leaves open. -/

namespace Sys2Proof

namespace Config

/-- The default contents of `RegMap`. PRESUMED by the spec itself, from general knowledge of the 8254x family (R2, R11,
R104, R106, R110 to R115; log 11). -/
def regMap : RegMap where
  ctrl   := 0x00000
  status := 0x00008
  eerd   := 0x00014
  icr    := 0x000C0
  ims    := 0x000D0
  imc    := 0x000D8
  rctl   := 0x00100
  tctl   := 0x00400
  rdbal  := 0x02800
  rdbah  := 0x02804
  rdlen  := 0x02808
  rdh    := 0x02810
  rdt    := 0x02818
  tdbal  := 0x03800
  tdbah  := 0x03804
  tdlen  := 0x03808
  tdh    := 0x03810
  tdt    := 0x03818
  mta    := 0x05200
  ctrlSlu        := 0x00000040
  statusLu       := 0x00000002
  eerdStart      := 0x00000001
  eerdDone       := 0x00000010
  eerdAddr       := 0x0000FF00
  eerdAddrShift  := 8
  eerdDataShift  := 16
  icrTxdw        := 0x00000001
  icrTxqe        := 0x00000002
  icrLsc         := 0x00000004
  icrRxdmt0      := 0x00000010
  icrRxo         := 0x00000040
  icrRxt0        := 0x00000080
  icrNamed       := 0x000000D7
  rctlEn         := 0x00000002
  rctlSbp        := 0x00000004
  rctlUpe        := 0x00000008
  rctlMpe        := 0x00000010
  rctlLpe        := 0x00000020
  rctlRdmts      := 0x00000300
  rctlRdmtsShift := 8
  rctlMo         := 0x00003000
  rctlBam        := 0x00008000
  rctlBsize      := 0x00030000
  rctlBsizeShift := 16
  rctlBsex       := 0x02000000
  rctlSecrc      := 0x04000000
  rctlModelled   := 0x0603B33E
  tctlEn         := 0x00000002
  tctlPsp        := 0x00000008
  tctlCt         := 0x00000FF0
  tctlCold       := 0x003FF000
  tctlModelled   := 0x003FFFFA
  dbalMask       := 0xFFFFFFF0
  dlenMask       := 0x000FFF80
  dlenMbz        := 0xFFF00000
  cursorMask     := 0x0000FFFF
  descSize       := 16
  descBuf        := { off := 0, len := 8 }
  rxdBack        := { off := 8, len := 8 }
  rxdLen         := { off := 8, len := 2 }
  rxdCsum        := { off := 10, len := 2 }
  rxdStatus      := { off := 12, len := 1 }
  rxdErrors      := { off := 13, len := 1 }
  rxdSpecial     := { off := 14, len := 2 }
  rxdDd          := 0x01
  rxdEop         := 0x02
  rxdErrMask     := 0x97
  txdLen         := { off := 8, len := 2 }
  txdCmd         := { off := 11, len := 1 }
  txdSta         := { off := 12, len := 1 }
  txdEop         := 0x01
  txdIfcs        := 0x02
  txdRs          := 0x08
  txdUnmodelled  := 0xF4
  txdDd          := 0x01
  txdStaKeep     := 0xF0

/-- The shortest wire length that is no runt (R224). -/
def minFrame : Nat := 64
/-- The longest wire length stored with LPE = 0 (R224). -/
def maxStdFrame : Nat := 1522
/-- The longest wire length ever stored (R224). -/
def maxFrame : Nat := 16384
/-- Bytes of the frame check sequence (R16, R226). -/
def fcsLen : Nat := 4
/-- The length a short packet is padded to, before its FCS (R266). -/
def padLen : Nat := 60
/-- The register window's size in bytes, and the number of regions HOST scans (R8, R343). -/
def windowSize : Nat := 131072
def maxRegions : Nat := 6
/-- A region's base must exceed this (R343, D57). -/
def lowLimit : Nat := 0xFFFF
/-- Descriptors per ring as the driver configures it (R8). -/
def bufferCount : Nat := 16

/-- The reset contents R340 leaves unspecified, as `State.reset` takes them: zero. DESIGN CHOICE, unsafe (log 9);
`State.resetWith` takes any. -/
def resetValues : Machine.ResetValues where
  ctrl  := 0
  icr   := 0
  tctl  := 0
  rdbal := 0
  rdbah := 0
  rdlen := 0
  tdbal := 0
  tdbah := 0
  tdlen := 0
  mta   := Vector.replicate 128 0

end Config

end Sys2Proof
end

