-- ==== Sys2Proof/Syntax.lean ====
section
/-! DEFINITION. The instructions: HOST's register transactions, one constructor for each row of spec/opcode_table.json
(R100, R102, R104). A write carries its data word W; an MTA row its index i, seven bits wide (R105). -/

namespace Sys2Proof

inductive Instr where
  | rdCtrl
  | wrCtrl (w : Word)
  | rdStatus
  | wrStatus (w : Word)
  | rdEerd
  | wrEerd (w : Word)
  | rdIcr
  | wrIcr (w : Word)
  | rdIms
  | wrIms (w : Word)
  | rdImc
  | wrImc (w : Word)
  | rdRctl
  | wrRctl (w : Word)
  | rdTctl
  | wrTctl (w : Word)
  | rdRdbal
  | wrRdbal (w : Word)
  | rdRdbah
  | wrRdbah (w : Word)
  | rdRdlen
  | wrRdlen (w : Word)
  | rdRdh
  | wrRdh (w : Word)
  | rdRdt
  | wrRdt (w : Word)
  | rdTdbal
  | wrTdbal (w : Word)
  | rdTdbah
  | wrTdbah (w : Word)
  | rdTdlen
  | wrTdlen (w : Word)
  | rdTdh
  | wrTdh (w : Word)
  | rdTdt
  | wrTdt (w : Word)
  | rdMta (i : BitVec 7)
  | wrMta (i : BitVec 7) (w : Word)
deriving DecidableEq, Repr

end Sys2Proof
end

