-- ==== Sys2Proof/WellFormed.lean ====
section
/-! DEFINITION. Well-formedness. An `Instr` is well formed by its types: the MTA index is seven bits wide and the data word
32 (R100, R105). What can be ill formed is the access word HOST presents, by the four tests of R101. -/

namespace Sys2Proof

open Config

/-- HI = 0: the offset lies inside the 128 KB window (R100, R101). -/
def inWindow (a : Word) : Bool := a.extractLsb' 17 12 == 0

/-- SZ = 00: a 32-bit access (R72, R101). -/
def isWordAccess (a : Word) : Bool := a.extractLsb' 29 2 == 0

/-- OFF[1:0] = 00: an aligned access (R73, R101). -/
def isAligned (a : Word) : Bool := a.extractLsb' 0 2 == 0

/-- OFF is the offset of a register (R74, R104). -/
def isMapped (a : Word) : Bool :=
  [regMap.ctrl, regMap.status, regMap.eerd, regMap.icr, regMap.ims, regMap.imc, regMap.rctl, regMap.tctl,
   regMap.rdbal, regMap.rdbah, regMap.rdlen, regMap.rdh, regMap.rdt,
   regMap.tdbal, regMap.tdbah, regMap.tdlen, regMap.tdh, regMap.tdt].contains (a.extractLsb' 0 17)
  || (regMap.mta.toNat ≤ (a.extractLsb' 0 17).toNat && (a.extractLsb' 0 17).toNat < regMap.mta.toNat + 512)

/-- An access word that selects a row of the opcode table (R101). -/
def accessWf (a : Word) : Bool := inWindow a && isWordAccess a && isAligned a && isMapped a

end Sys2Proof
end

