-- ==== Sys2Proof/Decode.lean ====
section
/-! DEFINITION. Decoding a register transaction (R100, R101, R104, R105), total, each rejection by name; and the encoder. -/

namespace Sys2Proof

open Config

/-- The registers a transaction can reach (R22). -/
inductive Reg where
  | ctrl
  | status
  | eerd
  | icr
  | ims
  | imc
  | rctl
  | tctl
  | rdbal
  | rdbah
  | rdlen
  | rdh
  | rdt
  | tdbal
  | tdbah
  | tdlen
  | tdh
  | tdt
  | mta (i : BitVec 7)
deriving DecidableEq, Repr

/-- Why an access word selects no row (R101): the fault codes F01 (twice), F03 and F02. -/
inductive DecodeError where
  | outsideWindow
  | badWidth
  | misaligned
  | unmapped
deriving DecidableEq, Repr

/-- The rows of R104 with one offset each. -/
def registerTable : List (Off × Reg) :=
  [ (regMap.ctrl, .ctrl), (regMap.status, .status), (regMap.eerd, .eerd), (regMap.icr, .icr), (regMap.ims, .ims),
    (regMap.imc, .imc), (regMap.rctl, .rctl), (regMap.tctl, .tctl),
    (regMap.rdbal, .rdbal), (regMap.rdbah, .rdbah), (regMap.rdlen, .rdlen), (regMap.rdh, .rdh), (regMap.rdt, .rdt),
    (regMap.tdbal, .tdbal), (regMap.tdbah, .tdbah), (regMap.tdlen, .tdlen), (regMap.tdh, .tdh), (regMap.tdt, .tdt) ]

/-- `RegMap.lookup` (R101, R104): the register an aligned offset reaches; an offset of the multicast table reaches the
entry of its index (R105). -/
def lookup (off : Off) : Option Reg :=
  match registerTable.find? (fun row => row.1 == off) with
  | some row => some row.2
  | none =>
    if regMap.mta.toNat ≤ off.toNat && off.toNat < regMap.mta.toNat + 512 then
      some (.mta (BitVec.ofNat 7 ((off.toNat - regMap.mta.toNat) / 4)))
    else none

/-- The row (R, read). -/
def readOf : Reg → Instr
  | .ctrl => .rdCtrl
  | .status => .rdStatus
  | .eerd => .rdEerd
  | .icr => .rdIcr
  | .ims => .rdIms
  | .imc => .rdImc
  | .rctl => .rdRctl
  | .tctl => .rdTctl
  | .rdbal => .rdRdbal
  | .rdbah => .rdRdbah
  | .rdlen => .rdRdlen
  | .rdh => .rdRdh
  | .rdt => .rdRdt
  | .tdbal => .rdTdbal
  | .tdbah => .rdTdbah
  | .tdlen => .rdTdlen
  | .tdh => .rdTdh
  | .tdt => .rdTdt
  | .mta i => .rdMta i

/-- The row (R, write) with its data word. -/
def writeOf : Reg → Word → Instr
  | .ctrl, w => .wrCtrl w
  | .status, w => .wrStatus w
  | .eerd, w => .wrEerd w
  | .icr, w => .wrIcr w
  | .ims, w => .wrIms w
  | .imc, w => .wrImc w
  | .rctl, w => .wrRctl w
  | .tctl, w => .wrTctl w
  | .rdbal, w => .wrRdbal w
  | .rdbah, w => .wrRdbah w
  | .rdlen, w => .wrRdlen w
  | .rdh, w => .wrRdh w
  | .rdt, w => .wrRdt w
  | .tdbal, w => .wrTdbal w
  | .tdbah, w => .wrTdbah w
  | .tdlen, w => .wrTdlen w
  | .tdh, w => .wrTdh w
  | .tdt, w => .wrTdt w
  | .mta i, w => .wrMta i w

/-- DIR (R100): bit 31 of the access word, 1 for a write. -/
def isWriteAccess (a : Word) : Bool := a.getLsbD 31

/-- Decoding the transaction (A, W), the tests in the order of R101; a read has no data word. -/
def decode (a w : Word) : Except DecodeError Instr :=
  if !inWindow a then .error .outsideWindow
  else if !isWordAccess a then .error .badWidth
  else if !isAligned a then .error .misaligned
  else
    match lookup (a.extractLsb' 0 17) with
    | none => .error .unmapped
    | some r => .ok (if isWriteAccess a then writeOf r w else readOf r)

/-- The access word of a read at an offset (R100). -/
def readAccess (off : Off) : Word := off.setWidth 32

/-- The access word of a write at an offset (R100). -/
def writeAccess (off : Off) : Word := 0x80000000 ||| off.setWidth 32

/-- The offset of MTA[i] (R104). -/
def mtaOff (i : BitVec 7) : Off := regMap.mta + (i.setWidth 17 <<< 2)

/-- The transaction (A, W) of an instruction, from the encodings of R141 to R176, R201 and R202; a read's data word, which
it does not have, is written 0. -/
def encode : Instr → Word × Word
  | .rdCtrl => (readAccess regMap.ctrl, 0)
  | .wrCtrl w => (writeAccess regMap.ctrl, w)
  | .rdStatus => (readAccess regMap.status, 0)
  | .wrStatus w => (writeAccess regMap.status, w)
  | .rdEerd => (readAccess regMap.eerd, 0)
  | .wrEerd w => (writeAccess regMap.eerd, w)
  | .rdIcr => (readAccess regMap.icr, 0)
  | .wrIcr w => (writeAccess regMap.icr, w)
  | .rdIms => (readAccess regMap.ims, 0)
  | .wrIms w => (writeAccess regMap.ims, w)
  | .rdImc => (readAccess regMap.imc, 0)
  | .wrImc w => (writeAccess regMap.imc, w)
  | .rdRctl => (readAccess regMap.rctl, 0)
  | .wrRctl w => (writeAccess regMap.rctl, w)
  | .rdTctl => (readAccess regMap.tctl, 0)
  | .wrTctl w => (writeAccess regMap.tctl, w)
  | .rdRdbal => (readAccess regMap.rdbal, 0)
  | .wrRdbal w => (writeAccess regMap.rdbal, w)
  | .rdRdbah => (readAccess regMap.rdbah, 0)
  | .wrRdbah w => (writeAccess regMap.rdbah, w)
  | .rdRdlen => (readAccess regMap.rdlen, 0)
  | .wrRdlen w => (writeAccess regMap.rdlen, w)
  | .rdRdh => (readAccess regMap.rdh, 0)
  | .wrRdh w => (writeAccess regMap.rdh, w)
  | .rdRdt => (readAccess regMap.rdt, 0)
  | .wrRdt w => (writeAccess regMap.rdt, w)
  | .rdTdbal => (readAccess regMap.tdbal, 0)
  | .wrTdbal w => (writeAccess regMap.tdbal, w)
  | .rdTdbah => (readAccess regMap.tdbah, 0)
  | .wrTdbah w => (writeAccess regMap.tdbah, w)
  | .rdTdlen => (readAccess regMap.tdlen, 0)
  | .wrTdlen w => (writeAccess regMap.tdlen, w)
  | .rdTdh => (readAccess regMap.tdh, 0)
  | .wrTdh w => (writeAccess regMap.tdh, w)
  | .rdTdt => (readAccess regMap.tdt, 0)
  | .wrTdt w => (writeAccess regMap.tdt, w)
  | .rdMta i => (readAccess (mtaOff i), 0)
  | .wrMta i w => (writeAccess (mtaOff i), w)

/-- The access word and the data word of a transaction whose bits are numbered from the access word's bit 0 on. -/
def wordsOfBits (nbits w : Nat) : Word × Word :=
  (BitVec.ofNat 32 (w % 2 ^ nbits), BitVec.ofNat 32 (w % 2 ^ nbits / 2 ^ 32))

/-- The instruction the decoder reads from the bits `w`, of which `nbits` are given and the rest are 0. -/
def decodeTableWord (nbits w : Nat) : Option Instr :=
  match decode (wordsOfBits nbits w).1 (wordsOfBits nbits w).2 with
  | .ok i => some i
  | .error _ => none

end Sys2Proof
end

