-- ==== Sys2Proof/Machine/State.lean ====
section
/-! DEFINITION. The machine's state as plain data (spec/10_state.md), the reasons a step stops (spec/60_exceptions.md R310),
and the state after reset (spec/70_reset_and_hazards.md R340). -/

namespace Sys2Proof.Machine

/-- The model faults F01 to F13 (R310), each with the data R310 records. A fault is the model's verdict that a step has
left what the spec gives a meaning to; all are safe: the machine stops where the chip may do something definite (R311). -/
inductive Fault where
  /-- F01, raised by decoding: offset outside the window or at no register (R101). Safe. -/
  | unmappedOffset (access : Word)
  /-- F02, raised by decoding: OFF[1:0] is not 0 (R73). Safe. -/
  | misaligned (access : Word)
  /-- F03, raised by decoding: not a 32-bit access (R72). Safe. -/
  | badWidth (access : Word)
  /-- F04, raised by RD IMC always (R173). Safe. -/
  | readWriteOnly (access : Word)
  /-- F05, raised by writes of CTRL, RCTL, TCTL, xDLEN, xDH, xDT: an MBZ bit set, a reserved encoding, a CTRL bit other than
  SLU changed (R313). Safe. -/
  | unmodelledField (access data : Word)
  /-- F06, raised by writes of xDBAL, xDBAH, xDLEN, xDH while the ring is enabled (R177). Safe. -/
  | configWhileEnabled (access data : Word)
  /-- F07, raised by writes of RDT and TDT that would take owned descriptors back while enabled (R179). Safe. -/
  | tailRetract (access data : Word)
  /-- F08, raised by writes of RCTL and TCTL that set EN with N = 0 or head at or past N (R178). Safe. -/
  | badEnable (access data : Word)
  /-- F09, raised by WR EERD while a read is in progress (R202). Safe. -/
  | eepromBusy (access data : Word)
  /-- F10, raised by HostWrite of a byte in an owned descriptor or buffer (R89). Safe. -/
  | hostWriteOwned (addr : Addr) (n : Nat)
  /-- F11, raised by TXE: CMD has IC, RPS, DEXT, VLE or IDE (R262). Safe. -/
  | txUnmodelledDesc (index : Nat) (cmd : Byte)
  /-- F12, raised by RXE and TXE: DmaOK is false (R84). Safe. -/
  | dmaNotAdmitted (agent : DmaAgent) (addr : Addr) (n : Nat)
  /-- F13, raised by WR STATUS always (R144). Safe. -/
  | writeReadOnly (access : Word)
deriving DecidableEq, Repr

/-- Reasons an instruction has no meaning in the model. -/
inductive Refusal where
  /-- Raised by an arm of `exec` whose instruction has no meaning yet; no arm raises it now. Safe. -/
  | notModelled (mnemonic : String)
deriving DecidableEq, Repr

/-- Host memory (R50): the bytes written so far, addresses strictly rising. -/
abbrev Memory := List Host.Cell

/-- Everything the spec gives the machine. `draws`, `readData`, `readBytes`, `turns`, and the form of `host` and `platform`
are the model's own (INVENTORY.md). -/
structure State where
  /-- the register file (R22) -/
  regs : Regs
  /-- EEC (R46) -/
  eec : Eec
  /-- RXE (R47) -/
  rxPhase : RxPhase
  /-- TXE: the bytes of the frame being assembled (R48) -/
  txAcc : List Byte
  /-- LINK (R49) -/
  linkUp : Bool
  /-- host physical memory (R50) -/
  mem : Memory
  /-- the recorded fault (R54) -/
  fault : Option Fault
  /-- the events so far, oldest first (R55) -/
  history : List Event
  /-- HOST's program and variables (R130, R325, R345) -/
  host : HostState
  /-- the data word the last register read returned to HOST (R100) -/
  readData : Word
  /-- the bytes the last HostRead returned (R88) -/
  readBytes : List Byte
  /-- how many free values have been drawn (R13) -/
  draws : Nat
  /-- the interleaving chosen so far: whose turns come next (R14) -/
  turns : List Turn
  /-- the parameters of R10 -/
  platform : Platform
deriving DecidableEq, Repr

/-- HOST before it has done anything: no program, DeviceInit at Uninitialized (R346). -/
def HostState.reset : HostState where
  prog     := []
  vars     := Vector.replicate 8 0
  mmioBase := none
  mac      := none
  init     := .uninitialized
  halted   := none

/-- The state after reset (R340), for every content `v` of what R340 leaves unspecified and every platform `p`. -/
def State.resetWith (v : ResetValues) (p : Platform) : State where
  regs :=
    { ctrl := v.ctrl &&& ~~~Config.regMap.ctrlSlu
      icr  := v.icr
      ims  := 0
      rctl := 0
      tctl := v.tctl &&& (Config.regMap.tctlCt ||| Config.regMap.tctlCold)
      rx   := { bal := v.rdbal &&& Config.regMap.dbalMask, bah := v.rdbah, len := v.rdlen &&& Config.regMap.dlenMask,
                head := 0, tail := 0 }
      tx   := { bal := v.tdbal &&& Config.regMap.dbalMask, bah := v.tdbah, len := v.tdlen &&& Config.regMap.dlenMask,
                head := 0, tail := 0 }
      mta  := v.mta }
  eec       := { busy := false, done := false, addr := 0, data := none }
  rxPhase   := .idle
  txAcc     := []
  linkUp    := false
  mem       := []
  fault     := none
  history   := []
  host      := HostState.reset
  readData  := 0
  readBytes := []
  draws     := 0
  turns     := []
  platform  := p

/-- The machine right after reset: R340 with the contents of `Config.resetValues` (DESIGN CHOICE, log 9) and a platform of
which nothing is known (log 6). -/
def State.reset : State := State.resetWith Config.resetValues Config.platform

/-- What a step answers. -/
abbrev Result := Host.Outcome State Fault Refusal

end Sys2Proof.Machine
end

