-- ==== Sys2Proof/Machine/Ops.lean ====
section
/-! DEFINITION. The named operations over memory, draws, bookkeeping and registers. The device takes no exception: when its
interrupt output rises it saves nothing and changes nothing (R305), and it has no return from interrupt (R306); what a failing
check does is `raise`, and R54's record of it is `State.recordFault`. -/

namespace Sys2Proof.Machine

open Config

/-! ### Host memory (R50, R76, R81) -/

/-- The byte listed at an address, if any. -/
def memLookup : Memory → Nat → Option Byte
  | [], _ => none
  | (b, v) :: m, a => if b = a then some v else memLookup m a

/-- The byte a read of one address gives: the last one written, and the free byte `Config.memReset` where nothing has been
written (R50, R94; log 10). -/
def memRead (m : Memory) (a : Nat) : Byte := (memLookup m a).getD (memReset a)

/-- A write of one byte; the list stays strictly rising. -/
def memWrite : Memory → Nat → Byte → Memory
  | [], a, v => [(a, v)]
  | (b, x) :: m, a, v =>
    if a < b then (a, v) :: (b, x) :: m
    else if a = b then (a, v) :: m
    else (b, x) :: memWrite m a v

/-- The addresses of the list are at least `lo`, strictly rising and below 2^64. -/
def memWfFrom : Nat → Memory → Bool
  | _, [] => true
  | lo, (a, _) :: m => decide (lo ≤ a) && decide (a < 2 ^ 64) && memWfFrom (a + 1) m

/-- The canonical form of memory: addresses strictly rising, each an address of the 64-bit space. An unlisted address holds no
written byte, so no listed byte equals what an unlisted address holds (log 10). -/
def Memory.wf (m : Memory) : Bool := memWfFrom 0 m

/-- `Mem[a .. a+n-1]`, addresses modulo 2^64 (R85, R88). -/
def readBytes (m : Memory) (a : Addr) : Nat → List Byte
  | 0 => []
  | n + 1 => memRead m a.toNat :: readBytes m (a + 1) n

/-- `Mem[a + k] <- v[k]` for every k, addresses modulo 2^64 (R85, R89). -/
def writeBytes (m : Memory) (a : Addr) : List Byte → Memory
  | [] => m
  | b :: bs => writeBytes (memWrite m a.toNat b) (a + 1) bs

/-- The little-endian value of a byte list (R76, R120). -/
def le : List Byte → Nat
  | [] => 0
  | b :: bs => b.toNat + 256 * le bs

/-- The `n` little-endian bytes of a value (R76). -/
def toLe : Nat → Nat → List Byte
  | 0, _ => []
  | n + 1, v => BitVec.ofNat 8 v :: toLe n (v / 256)

/-! ### Faults (R13, R54, R310, R311) -/

/-- `raise Fault(f)`: nothing else of the step happens (R13). -/
def raise (f : Fault) : Result := .fault f

/-- The fault code a decoding test names (R101). -/
def decodeFault (a : Word) : DecodeError → Fault
  | .outsideWindow => .unmappedOffset a
  | .badWidth => .badWidth a
  | .misaligned => .misaligned a
  | .unmapped => .unmappedOffset a

/-- R54: the first fault is recorded and never cleared. -/
def State.recordFault (f : Fault) (s : State) : State :=
  match s.fault with
  | none => { s with fault := some f }
  | some _ => s

/-! ### Draws (R13; log 4) -/

/-- A 32-bit draw, and the state with the draw made. -/
def drawWord (s : State) : Word × State := (draw32 s.draws, { s with draws := s.draws + 1 })

/-- A 16-bit draw, and the state with the draw made. -/
def drawHalf (s : State) : Half × State := (draw16 s.draws, { s with draws := s.draws + 1 })

/-! ### History and transactions (R55, R140) -/

/-- Append one event to the history (R55). -/
def record (e : Event) (s : State) : State := { s with history := s.history ++ [e] }

/-- The end of a register read: the result goes to HOST and the transaction into the history (R140). -/
def finishRead (off : Off) (v : Word) (s : State) : State :=
  { s with readData := v, history := s.history ++ [.transaction off false v] }

/-- The end of a register write: the transaction goes into the history (R140). -/
def finishWrite (off : Off) (w : Word) (s : State) : State :=
  { s with history := s.history ++ [.transaction off true w] }

/-! ### Registers -/

/-- The registers of one ring (R36 to R39). -/
def ringRegs (r : Ring) (s : State) : RingRegs :=
  match r with
  | .rx => s.regs.rx
  | .tx => s.regs.tx

/-- Write the registers of one ring. -/
def setRingRegs (r : Ring) (x : RingRegs) (s : State) : State :=
  match r with
  | .rx => { s with regs := { s.regs with rx := x } }
  | .tx => { s with regs := { s.regs with tx := x } }

/-- Entry i of the multicast table (R40). -/
def mtaGet (i : BitVec 7) (s : State) : Word := s.regs.mta[i.toNat]'i.isLt

/-- Write entry i of the multicast table (R40). -/
def mtaSet (i : BitVec 7) (w : Word) (s : State) : State :=
  { s with regs := { s.regs with mta := s.regs.mta.set i.toNat w i.isLt } }

/-! ### DMA (R13, R84, R85) -/

/-- DmaOK(addr, n) (R84), false for a range that wraps past 2^64 - 1 (R85); the form of the parameter is log 7. -/
def dmaOK (p : Platform) (a : Addr) (n : Nat) : Bool :=
  decide (a.toNat + n ≤ 2 ^ 64) &&
    match p.dma with
    | .ranges given => given.any fun g => decide (g.1.toNat ≤ a.toNat) && decide (a.toNat + n ≤ g.1.toNat + g.2)
    | .accesses admitted => admitted.contains (a, n)
    | .platformRule => dmaRule a n

/-- `MemRead(addr, n)` by a device agent (R13): DmaOK first, F12 if it fails (R84). -/
def dmaRead (g : DmaAgent) (a : Addr) (n : Nat) (s : State) : Except Fault (List Byte × State) :=
  if dmaOK s.platform a n then
    .ok (readBytes s.mem a n, record (.dmaRead g a (readBytes s.mem a n)) s)
  else .error (.dmaNotAdmitted g a n)

/-- `MemWrite(addr, |v|, v)` by a device agent (R13): DmaOK first, F12 if it fails (R84). -/
def dmaWrite (g : DmaAgent) (a : Addr) (v : List Byte) (s : State) : Except Fault State :=
  if dmaOK s.platform a v.length then
    .ok (record (.dmaWrite g a v) { s with mem := writeBytes s.mem a v })
  else .error (.dmaNotAdmitted g a v.length)

end Sys2Proof.Machine
end

