-- ==== Sys2Proof/Machine/Operands.lean ====
section
/-! DEFINITION. Register fields, ring arithmetic and ownership: the operand forms every meaning uses
(spec R32 to R39, R51 to R53, R120, R177 to R179). -/

namespace Sys2Proof.Machine

open Config

/-! ### Fields of a word -/

/-- Some bit of the mask is 1 in the word. For a one-bit mask: the bit is 1. -/
def hasAny (w mask : Word) : Bool := (w &&& mask) != 0

/-- A field of a word as a number: the masked bits moved down by the field's shift. -/
def fieldNat (w mask : Word) (shift : Nat) : Nat := ((w &&& mask) >>> shift).toNat

/-- BufSize(RCTL) (R33); the reserved encoding, which no write can select, has a free value (log 12). -/
def bufSize (rctl : Word) : Nat :=
  match hasAny rctl regMap.rctlBsex, fieldNat rctl regMap.rctlBsize regMap.rctlBsizeShift with
  | false, 0 => 2048
  | false, 1 => 1024
  | false, 2 => 512
  | false, _ => 256
  | true, 1 => 16384
  | true, 2 => 8192
  | true, 3 => 4096
  | true, _ => bufSizeReserved

/-- RDMTS of RCTL (R32). -/
def rdmts (rctl : Word) : Nat := fieldNat rctl regMap.rctlRdmts regMap.rctlRdmtsShift

/-- Thr(RCTL, N) (R34); the reserved encoding, which no write can select, has a free value (log 12). -/
def threshold (rctl : Word) (n : Nat) : Nat :=
  match rdmts rctl with
  | 0 => n / 2
  | 1 => n / 4
  | 2 => n / 8
  | _ => thrReserved n

/-- RCTL holds an encoding R32 and R33 give a meaning: no MBZ bit, RDMTS not 11, no reserved buffer size. -/
def rctlLegal (w : Word) : Bool :=
  !hasAny w (~~~regMap.rctlModelled) && rdmts w != 3 &&
    !(hasAny w regMap.rctlBsex && fieldNat w regMap.rctlBsize regMap.rctlBsizeShift == 0)

/-- TCTL has no MBZ bit set (R35). -/
def tctlLegal (w : Word) : Bool := !hasAny w (~~~regMap.tctlModelled)

/-! ### Ring arithmetic (R36, R37, R51, R120) -/

/-- N(r) = Len(r) / 16 (R37). -/
def ringCount (x : RingRegs) : Nat := (x.len &&& regMap.dlenMask).toNat / regMap.descSize

/-- Base(r) = (zext_64(xBAH) << 32) | zext_64(xBAL & 0xFFFFFFF0) (R36, R120). -/
def ringBase (x : RingRegs) : Addr := (x.bah.setWidth 64 <<< 32) ||| (x.bal &&& regMap.dbalMask).setWidth 64

/-- DescAddr(r, i) = (Base(r) + 16 i) mod 2^64 (R120). -/
def descAddr (x : RingRegs) (i : Nat) : Addr := ringBase x + BitVec.ofNat 64 (regMap.descSize * i)

/-- D(h, t) for a ring of N descriptors (R51). -/
def ownedCount (n h t : Nat) : Nat :=
  if n = 0 ∨ n ≤ h then 0
  else if n ≤ t then n
  else (t + n - h) % n

/-- D of a ring as its registers stand (R51). -/
def ringOwned (x : RingRegs) : Nat := ownedCount (ringCount x) x.head.toNat x.tail.toNat

/-- The owned descriptor indices of a ring (R52). -/
def ownedIndices (x : RingRegs) : List Nat :=
  (List.range (ringOwned x)).map fun j => (x.head.toNat + j) % ringCount x

/-- next(h) = (h + 1) mod N (R120, R234, R270). -/
def nextHead (x : RingRegs) : Half := BitVec.ofNat 16 ((x.head.toNat + 1) % ringCount x)

/-- k = ceil(L / B) (R120, R228). -/
def pieceCount (l b : Nat) : Nat := (l + b - 1) / b

/-- A byte address lies in the `n` bytes from `base` on, modulo 2^64. -/
def inRange (a base : Addr) (n : Nat) : Bool := decide ((a - base).toNat < n)

/-! ### Fields of a descriptor (R110, R113) -/

/-- The address of a field of the descriptor at `d`. -/
def fieldAddr (d : Addr) (f : DescField) : Addr := d + BitVec.ofNat 64 f.off

/-- The bytes of a field among the bytes of a descriptor. -/
def fieldBytes (f : DescField) (desc : List Byte) : List Byte := (desc.drop f.off).take f.len

/-- The bytes of a descriptor with those of one field replaced. -/
def putField (f : DescField) (v desc : List Byte) : List Byte := desc.take f.off ++ v ++ desc.drop (f.off + f.len)

/-! ### Ownership (R52, R53) -/

/-- The address lies in an owned descriptor of the ring (R52). -/
def inOwnedDesc (x : RingRegs) (a : Addr) : Bool :=
  (ownedIndices x).any fun i => inRange a (descAddr x i) regMap.descSize

/-- The 64-bit buffer address in the descriptor at `d`, as memory holds it now (R52, R110, R113). -/
def descBuffer (m : Memory) (d : Addr) : Addr :=
  BitVec.ofNat 64 (le (readBytes m (fieldAddr d regMap.descBuf) regMap.descBuf.len))

/-- The length field of the transmit descriptor at `d` (R113). -/
def descLength (m : Memory) (d : Addr) : Nat :=
  le (readBytes m (fieldAddr d regMap.txdLen) regMap.txdLen.len)

/-- The address lies in an owned receive buffer (R52). The size is that of RCTL as it stands, for a frame in progress too: R52
names `BufSize(RCTL)`, and what R238 latches is the frame's own storing. DEDUCED (log 23). -/
def inOwnedRxBuffer (s : State) (a : Addr) : Bool :=
  (ownedIndices s.regs.rx).any fun i =>
    inRange a (descBuffer s.mem (descAddr s.regs.rx i)) (bufSize s.regs.rctl)

/-- The address lies in an owned transmit buffer (R52). -/
def inOwnedTxBuffer (s : State) (a : Addr) : Bool :=
  (ownedIndices s.regs.tx).any fun i =>
    inRange a (descBuffer s.mem (descAddr s.regs.tx i)) (descLength s.mem (descAddr s.regs.tx i))

/-- The address lies in an owned descriptor or buffer of either ring (R52, R89). -/
def hostOwnedByDevice (s : State) (a : Addr) : Bool :=
  inOwnedDesc s.regs.rx a || inOwnedDesc s.regs.tx a || inOwnedRxBuffer s a || inOwnedTxBuffer s a

/-- rx_phase = Storing (R47). -/
def isStoring (s : State) : Bool :=
  match s.rxPhase with
  | .idle => false
  | .storing _ => true

/-- The ring is enabled (R53): its EN bit is 1; a receive frame in progress counts too. R53 says so for R36 to R38 and R177;
that it also counts for the tail check of R158 and R179 is DEDUCED from R238 and D44 (log 25). -/
def ringEnabled (r : Ring) (s : State) : Bool :=
  match r with
  | .rx => hasAny s.regs.rctl regMap.rctlEn || isStoring s
  | .tx => hasAny s.regs.tctl regMap.tctlEn

/-! ### The checks shared by the ring rows (R177 to R179) -/

/-- ConfigWriteOK(r) (R177). -/
def configWriteOK (r : Ring) (s : State) : Bool := !ringEnabled r s

/-- EnableOK(r) (R178): N is not 0 and head is below N. -/
def enableOK (r : Ring) (s : State) : Bool :=
  ringCount (ringRegs r s) != 0 && decide ((ringRegs r s).head.toNat < ringCount (ringRegs r s))

/-- TailOK(r, t') (R179): the owned count does not shrink. -/
def tailOK (r : Ring) (t' : Half) (s : State) : Bool :=
  decide (ringOwned (ringRegs r s) ≤
    ownedCount (ringCount (ringRegs r s)) (ringRegs r s).head.toNat t'.toNat)

/-! ### Register writes of one shape on both rings (R150 to R168) -/

/-- A write of xDBAL (R150, R160). -/
def writeBal (r : Ring) (off : Off) (w : Word) (s : State) : Result :=
  if configWriteOK r s then
    .next (finishWrite off w (setRingRegs r { ringRegs r s with bal := w &&& regMap.dbalMask } s))
  else raise (.configWhileEnabled (writeAccess off) w)

/-- A write of xDBAH (R152, R162). -/
def writeBah (r : Ring) (off : Off) (w : Word) (s : State) : Result :=
  if configWriteOK r s then
    .next (finishWrite off w (setRingRegs r { ringRegs r s with bah := w } s))
  else raise (.configWhileEnabled (writeAccess off) w)

/-- A write of xDLEN (R154, R164). -/
def writeLen (r : Ring) (off : Off) (w : Word) (s : State) : Result :=
  if configWriteOK r s then
    if hasAny w regMap.dlenMbz then raise (.unmodelledField (writeAccess off) w)
    else .next (finishWrite off w (setRingRegs r { ringRegs r s with len := w &&& regMap.dlenMask } s))
  else raise (.configWhileEnabled (writeAccess off) w)

/-- A write of xDH (R156, R166). -/
def writeHead (r : Ring) (off : Off) (w : Word) (s : State) : Result :=
  if configWriteOK r s then
    if hasAny w (~~~regMap.cursorMask) then raise (.unmodelledField (writeAccess off) w)
    else .next (finishWrite off w (setRingRegs r { ringRegs r s with head := w.setWidth 16 } s))
  else raise (.configWhileEnabled (writeAccess off) w)

/-- A write of xDT (R158, R168): MBZ bits first, then TailOK while the ring is enabled; a receive frame in progress with EN = 0
counts as enabled here (DEDUCED, log 25). -/
def writeTail (r : Ring) (off : Off) (w : Word) (s : State) : Result :=
  if hasAny w (~~~regMap.cursorMask) then raise (.unmodelledField (writeAccess off) w)
  else if ringEnabled r s && !tailOK r (w.setWidth 16) s then raise (.tailRetract (writeAccess off) w)
  else .next (finishWrite off w (setRingRegs r { ringRegs r s with tail := w.setWidth 16 } s))

/-- A read whose result is a stored value and which changes nothing else (R140). -/
def readStored (off : Off) (v : Word) (s : State) : Result := .next (finishRead off v s)

end Sys2Proof.Machine
end

