-- ==== Sys2Proof/Machine/Flags.lean ====
section
/-! DEFINITION. The flags (R41): cause bits, the interrupt output, and the register words read from the agents' state. -/

namespace Sys2Proof.Machine

open Config

/-- A device event sets its cause bits in ICR, masked or not (R27, R301). -/
def setCause (c : Word) (s : State) : State := { s with regs := { s.regs with icr := s.regs.icr ||| c } }

/-- INT = ((ICR & IMS) != 0) (R56, R303). -/
def State.int (s : State) : Bool := hasAny s.regs.icr s.regs.ims

/-- STATUS as a read shows it: LU from LINK, every other bit of the draw (R25, R143). -/
def statusWord (linkUp : Bool) (draw : Word) : Word :=
  (if linkUp then regMap.statusLu else 0) ||| (draw &&& ~~~regMap.statusLu)

/-- IMS as a read shows it: the named bits, every other bit of the draw (R28, R171). -/
def imsWord (ims draw : Word) : Word := (ims &&& regMap.icrNamed) ||| (draw &&& ~~~regMap.icrNamed)

/-- EERD as a read shows it, with the value of DATA (R26, R201). START and the hardwired bits read 0. -/
def eerdWord (e : Eec) (data : Half) : Word :=
  (data.setWidth 32 <<< regMap.eerdDataShift) ||| (e.addr.setWidth 32 <<< regMap.eerdAddrShift) |||
    (if e.done then regMap.eerdDone else 0)

end Sys2Proof.Machine
end

