-- ==== Sys2Proof/Machine/Control.lean ====
section
/-! DEFINITION. The meanings of the control and status rows: CTRL, STATUS, RCTL, TCTL (spec R141 to R148, R178). -/

namespace Sys2Proof.Machine

open Config

/-- RD CTRL (R141). -/
def execRdCtrl (s : State) : Result := readStored regMap.ctrl s.regs.ctrl s

/-- WR CTRL (R142): only SLU may change. -/
def execWrCtrl (w : Word) (s : State) : Result :=
  if hasAny (w ^^^ s.regs.ctrl) (~~~regMap.ctrlSlu) then raise (.unmodelledField (writeAccess regMap.ctrl) w)
  else .next (finishWrite regMap.ctrl w { s with regs := { s.regs with ctrl := w } })

/-- RD STATUS (R143): LU, and a draw in every other bit. -/
def execRdStatus (s : State) : Result :=
  .next (finishRead regMap.status (statusWord s.linkUp (drawWord s).1) (drawWord s).2)

/-- WR STATUS (R144): STATUS is read-only, F13 always. -/
def execWrStatus (_w : Word) (_s : State) : Result := raise (.writeReadOnly (writeAccess regMap.status))

/-- RD RCTL (R145). -/
def execRdRctl (s : State) : Result := readStored regMap.rctl s.regs.rctl s

/-- The write turns the ring's EN bit from 0 to 1 (R178). -/
def turnsOn (en old new : Word) : Bool := hasAny new en && !hasAny old en

/-- WR RCTL (R146): F05 for an encoding with no meaning, then EnableOK(RX) when EN goes from 0 to 1. -/
def execWrRctl (w : Word) (s : State) : Result :=
  if !rctlLegal w then raise (.unmodelledField (writeAccess regMap.rctl) w)
  else if turnsOn regMap.rctlEn s.regs.rctl w && !enableOK .rx s then raise (.badEnable (writeAccess regMap.rctl) w)
  else .next (finishWrite regMap.rctl w { s with regs := { s.regs with rctl := w } })

/-- RD TCTL (R147). -/
def execRdTctl (s : State) : Result := readStored regMap.tctl s.regs.tctl s

/-- WR TCTL (R148): F05 for an MBZ bit, then EnableOK(TX) when EN goes from 0 to 1. -/
def execWrTctl (w : Word) (s : State) : Result :=
  if !tctlLegal w then raise (.unmodelledField (writeAccess regMap.tctl) w)
  else if turnsOn regMap.tctlEn s.regs.tctl w && !enableOK .tx s then raise (.badEnable (writeAccess regMap.tctl) w)
  else .next (finishWrite regMap.tctl w { s with regs := { s.regs with tctl := w } })

end Sys2Proof.Machine
end

