-- ==== Sys2Proof/Machine/Eeprom.lean ====
section
/-! DEFINITION. The EEPROM read protocol: the EERD rows and EEC's completion step (spec R200 to R205). -/

namespace Sys2Proof.Machine

open Config

/-- RD EERD (R201): DATA is the completed read's data, a draw otherwise. -/
def execRdEerd (s : State) : Result :=
  match s.eec.done, s.eec.data with
  | true, some d => .next (finishRead regMap.eerd (eerdWord s.eec d) s)
  | _, _ => .next (finishRead regMap.eerd (eerdWord s.eec (drawHalf s).1) (drawHalf s).2)

/-- EERD.ADDR of a written word (R26, R202). -/
def eerdAddrOf (w : Word) : Byte := BitVec.ofNat 8 (fieldNat w regMap.eerdAddr regMap.eerdAddrShift)

/-- EEC's state after an accepted write of EERD (R202). -/
def eecAfterWrite (w : Word) (e : Eec) : Eec :=
  if hasAny w regMap.eerdStart then { e with addr := eerdAddrOf w, busy := true, done := false }
  else { e with addr := eerdAddrOf w }

/-- WR EERD (R202): F09 while a read is in progress. -/
def execWrEerd (w : Word) (s : State) : Result :=
  if s.eec.busy then raise (.eepromBusy (writeAccess regMap.eerd) w)
  else .next (finishWrite regMap.eerd w { s with eec := eecAfterWrite w s.eec })

/-- The word of the EEPROM at an address (R10, R46). -/
def eepromWord (p : Platform) (a : Byte) : Half := p.eeprom[a.toNat]'a.isLt

/-- EEC's completion step is enabled (R203, R205). -/
def eecEnabled (s : State) : Bool := s.eec.busy && s.platform.eepromPresent

/-- EEC's completion step (R203); without its guard EEC has no step. -/
def eecStep (s : State) : Result :=
  if eecEnabled s then
    .next { s with eec := { s.eec with data := some (eepromWord s.platform s.eec.addr), done := true, busy := false } }
  else .next s

end Sys2Proof.Machine
end

