-- ==== Sys2Proof/Machine/Interrupt.lean ====
section
/-! DEFINITION. The meanings of the interrupt rows: ICR, IMS, IMC (spec R169 to R174, R301 to R306), and of the multicast
table's rows (R175, R176). -/

namespace Sys2Proof.Machine

open Config

/-- RD ICR (R169): a read clears the causes where the parameter ICR_READ_CLEARS is true. -/
def execRdIcr (s : State) : Result :=
  .next (finishRead regMap.icr s.regs.icr
    { s with regs := { s.regs with icr := if s.platform.icrReadClears then 0 else s.regs.icr } })

/-- WR ICR (R170): write one to clear, the acknowledgment of R304. -/
def execWrIcr (w : Word) (s : State) : Result :=
  .next (finishWrite regMap.icr w { s with regs := { s.regs with icr := s.regs.icr &&& ~~~w } })

/-- RD IMS (R171): the six named bits, a draw in the rest. -/
def execRdIms (s : State) : Result :=
  .next (finishRead regMap.ims (imsWord s.regs.ims (drawWord s).1) (drawWord s).2)

/-- WR IMS (R172): write one to set. -/
def execWrIms (w : Word) (s : State) : Result :=
  .next (finishWrite regMap.ims w { s with regs := { s.regs with ims := s.regs.ims ||| w } })

/-- RD IMC (R173): IMC is write-only, F04 always. -/
def execRdImc (_s : State) : Result := raise (.readWriteOnly (readAccess regMap.imc))

/-- WR IMC (R174): clears IMS bits; ICR is unchanged. -/
def execWrImc (w : Word) (s : State) : Result :=
  .next (finishWrite regMap.imc w { s with regs := { s.regs with ims := s.regs.ims &&& ~~~w } })

/-- RD MTA[i] (R175). -/
def execRdMta (i : BitVec 7) (s : State) : Result := readStored (mtaOff i) (mtaGet i s) s

/-- WR MTA[i] (R176). -/
def execWrMta (i : BitVec 7) (w : Word) (s : State) : Result :=
  .next (finishWrite (mtaOff i) w (mtaSet i w s))

end Sys2Proof.Machine
end

