-- ==== Sys2Proof/Machine/RingRows.lean ====
section
/-! DEFINITION. The meanings of the ring rows: base, length, head and tail of the receive ring (spec R149 to R158) and of the
transmit ring (R159 to R168), over the shared ring writes of Operands.lean. -/

namespace Sys2Proof.Machine

open Config

/-- RD RDBAL (R149). -/
def execRdRdbal (s : State) : Result := readStored regMap.rdbal s.regs.rx.bal s
/-- WR RDBAL (R150). -/
def execWrRdbal (w : Word) (s : State) : Result := writeBal .rx regMap.rdbal w s
/-- RD RDBAH (R151). -/
def execRdRdbah (s : State) : Result := readStored regMap.rdbah s.regs.rx.bah s
/-- WR RDBAH (R152). -/
def execWrRdbah (w : Word) (s : State) : Result := writeBah .rx regMap.rdbah w s
/-- RD RDLEN (R153). -/
def execRdRdlen (s : State) : Result := readStored regMap.rdlen s.regs.rx.len s
/-- WR RDLEN (R154). -/
def execWrRdlen (w : Word) (s : State) : Result := writeLen .rx regMap.rdlen w s
/-- RD RDH (R155). -/
def execRdRdh (s : State) : Result := readStored regMap.rdh (s.regs.rx.head.setWidth 32) s
/-- WR RDH (R156). -/
def execWrRdh (w : Word) (s : State) : Result := writeHead .rx regMap.rdh w s
/-- RD RDT (R157). -/
def execRdRdt (s : State) : Result := readStored regMap.rdt (s.regs.rx.tail.setWidth 32) s
/-- WR RDT (R158). -/
def execWrRdt (w : Word) (s : State) : Result := writeTail .rx regMap.rdt w s

/-- RD TDBAL (R159). -/
def execRdTdbal (s : State) : Result := readStored regMap.tdbal s.regs.tx.bal s
/-- WR TDBAL (R160). -/
def execWrTdbal (w : Word) (s : State) : Result := writeBal .tx regMap.tdbal w s
/-- RD TDBAH (R161). -/
def execRdTdbah (s : State) : Result := readStored regMap.tdbah s.regs.tx.bah s
/-- WR TDBAH (R162). -/
def execWrTdbah (w : Word) (s : State) : Result := writeBah .tx regMap.tdbah w s
/-- RD TDLEN (R163). -/
def execRdTdlen (s : State) : Result := readStored regMap.tdlen s.regs.tx.len s
/-- WR TDLEN (R164). -/
def execWrTdlen (w : Word) (s : State) : Result := writeLen .tx regMap.tdlen w s
/-- RD TDH (R165). -/
def execRdTdh (s : State) : Result := readStored regMap.tdh (s.regs.tx.head.setWidth 32) s
/-- WR TDH (R166). -/
def execWrTdh (w : Word) (s : State) : Result := writeHead .tx regMap.tdh w s
/-- RD TDT (R167). -/
def execRdTdt (s : State) : Result := readStored regMap.tdt (s.regs.tx.tail.setWidth 32) s
/-- WR TDT (R168). -/
def execWrTdt (w : Word) (s : State) : Result := writeTail .tx regMap.tdt w s

end Sys2Proof.Machine
end

