-- ==== Sys2Proof/Machine/Dispatch.lean ====
section
/-! DEFINITION. The dispatch: one arm per row of spec/opcode_table.json, each one call of the row's meaning (R140). -/

namespace Sys2Proof.Machine

/-- The effect of one register transaction of HOST on the state (R140). -/
def exec (i : Instr) (s : State) : Host.Outcome State Fault Refusal :=
  match i with
  | .rdCtrl => Sys2Proof.Machine.execRdCtrl s
  | .wrCtrl w => Sys2Proof.Machine.execWrCtrl w s
  | .rdStatus => Sys2Proof.Machine.execRdStatus s
  | .wrStatus w => Sys2Proof.Machine.execWrStatus w s
  | .rdEerd => Sys2Proof.Machine.execRdEerd s
  | .wrEerd w => Sys2Proof.Machine.execWrEerd w s
  | .rdIcr => Sys2Proof.Machine.execRdIcr s
  | .wrIcr w => Sys2Proof.Machine.execWrIcr w s
  | .rdIms => Sys2Proof.Machine.execRdIms s
  | .wrIms w => Sys2Proof.Machine.execWrIms w s
  | .rdImc => Sys2Proof.Machine.execRdImc s
  | .wrImc w => Sys2Proof.Machine.execWrImc w s
  | .rdRctl => Sys2Proof.Machine.execRdRctl s
  | .wrRctl w => Sys2Proof.Machine.execWrRctl w s
  | .rdTctl => Sys2Proof.Machine.execRdTctl s
  | .wrTctl w => Sys2Proof.Machine.execWrTctl w s
  | .rdRdbal => Sys2Proof.Machine.execRdRdbal s
  | .wrRdbal w => Sys2Proof.Machine.execWrRdbal w s
  | .rdRdbah => Sys2Proof.Machine.execRdRdbah s
  | .wrRdbah w => Sys2Proof.Machine.execWrRdbah w s
  | .rdRdlen => Sys2Proof.Machine.execRdRdlen s
  | .wrRdlen w => Sys2Proof.Machine.execWrRdlen w s
  | .rdRdh => Sys2Proof.Machine.execRdRdh s
  | .wrRdh w => Sys2Proof.Machine.execWrRdh w s
  | .rdRdt => Sys2Proof.Machine.execRdRdt s
  | .wrRdt w => Sys2Proof.Machine.execWrRdt w s
  | .rdTdbal => Sys2Proof.Machine.execRdTdbal s
  | .wrTdbal w => Sys2Proof.Machine.execWrTdbal w s
  | .rdTdbah => Sys2Proof.Machine.execRdTdbah s
  | .wrTdbah w => Sys2Proof.Machine.execWrTdbah w s
  | .rdTdlen => Sys2Proof.Machine.execRdTdlen s
  | .wrTdlen w => Sys2Proof.Machine.execWrTdlen w s
  | .rdTdh => Sys2Proof.Machine.execRdTdh s
  | .wrTdh w => Sys2Proof.Machine.execWrTdh w s
  | .rdTdt => Sys2Proof.Machine.execRdTdt s
  | .wrTdt w => Sys2Proof.Machine.execWrTdt w s
  | .rdMta k => Sys2Proof.Machine.execRdMta k s
  | .wrMta k w => Sys2Proof.Machine.execWrMta k w s

end Sys2Proof.Machine
end

