-- ==== Sys2Proof/Machine/HostAgent.lean ====
section
/-! DEFINITION. The agent HOST: its loads and stores of host memory (spec R88, R89), its register transactions (R140), and the
host script its program is written in (R130, R131). -/

namespace Sys2Proof.Machine

open Config

/-! ### Host memory (R88, R89) -/

/-- `HostRead(addr, n)` (R88): memory as it is, but a draw in an owned receive buffer; byte k takes the draw of its place. For a
byte that lies both in a descriptor and in an owned receive buffer R88 says both; the model takes the draw (DESIGN CHOICE,
log 24). -/
def hostReadBytes (s : State) (a : Addr) (draw : Nat) : Nat → List Byte
  | 0 => []
  | n + 1 =>
    (if inOwnedRxBuffer s a then drawByte draw else memRead s.mem a.toNat) :: hostReadBytes s (a + 1) (draw + 1) n

/-- The state after a HostRead of `n` bytes: the bytes go to HOST. -/
def hostRead (a : Addr) (n : Nat) (s : State) : State :=
  { s with readBytes := hostReadBytes s a s.draws n, draws := s.draws + n }

/-- Some of the `n` bytes from the address on is owned by the device (R89). -/
def hostOwnedAny (s : State) (a : Addr) : Nat → Bool
  | 0 => false
  | n + 1 => hostOwnedByDevice s a || hostOwnedAny s (a + 1) n

/-- `HostWrite(addr, |v|, v)` (R89): F10 if any byte is owned. -/
def hostWrite (a : Addr) (v : List Byte) (s : State) : Result :=
  if hostOwnedAny s a v.length then raise (.hostWriteOwned a v.length)
  else .next { s with mem := writeBytes s.mem a v }

/-! ### Register transactions (R100, R140) -/

/-- The transaction (A, W): decode, then the rule of the selected row; a decoding fault ends the step (R140). -/
def hostTransact (a w : Word) (s : State) : Result :=
  match decode a w with
  | .ok i => exec i s
  | .error e => raise (decodeFault a e)

/-- What a step answers, with a change of HOST's own state after it. -/
def andThen (f : State → State) : Result → Result
  | .next s => .next (f s)
  | .fault r => .fault r
  | .refused r => .refused r

/-! ### The host script (R130, R131) -/

/-- The bytes a load or store of the script moves (R130). -/
def memBytes : MemWidth → Nat
  | .w8 => 1
  | .w16 => 2
  | .w32 => 4
  | .w64 => 8

/-- The value of a host variable. -/
def varGet (x : HostVar) (s : State) : BitVec 64 := s.host.vars[x.val]'x.isLt

/-- Bind a host variable. -/
def varSet (x : HostVar) (v : BitVec 64) (s : State) : State :=
  { s with host := { s.host with vars := s.host.vars.set x.val v x.isLt } }

/-- The value of an expression. -/
def evalExpr (s : State) : HostExpr → BitVec 64
  | .lit v => v
  | .var x => varGet x s
  | .or a b => evalExpr s a ||| evalExpr s b
  | .and a b => evalExpr s a &&& evalExpr s b
  | .shl a k => evalExpr s a <<< k
  | .shr a k => evalExpr s a >>> k

/-- What is left of HOST's program. -/
def setProg (p : List HostOp) (s : State) : State := { s with host := { s.host with prog := p } }

/-- Put an operation in front of HOST's program. -/
def push (op : HostOp) (s : State) : State := setProg (op :: s.host.prog) s

/-- HOST's fatal stop (R322): nothing of its program is left. -/
def haltHost (why : HostHalt) (s : State) : State :=
  { s with host := { s.host with prog := [], halted := some why } }

/-- Region resolution (R343): the first of at most six regions whose size is 128 KB and whose base lies above 0xFFFF. -/
def selectRegion (regions : List (Addr × Nat)) : Option Addr :=
  ((regions.take maxRegions).find? fun r => r.2 == windowSize && decide (lowLimit < r.1.toNat)).map (·.1)

/-- Steps 1 and 2 of the bring-up (R343, R344): ConfigurationFault without a region, or with base 0. -/
def resolveBase (regions : List (Addr × Nat)) (s : State) : State :=
  match selectRegion regions with
  | none => haltHost .configurationFault s
  | some b =>
    if b = 0 then haltHost .configurationFault s
    else { s with host := { s.host with mmioBase := some b } }

/-- The station address of three EEPROM words: each word's low byte, then its high byte (R207, R208). -/
def stationBytes (w0 w1 w2 : Half) : List Byte :=
  [w0.setWidth 8, (w0 >>> 8).setWidth 8, w1.setWidth 8, (w1 >>> 8).setWidth 8, w2.setWidth 8, (w2 >>> 8).setWidth 8]

/-- One operation of HOST's program, already taken off it. R130 does not say what is stored of an expression wider than the
access, nor how a narrower value is bound: `writeReg` (W32) and `memw` (MEMW8, 16, 32) take the low bits of the 64-bit value,
`readReg` and `memr` bind the value zero-extended (DESIGN CHOICE, log 15). -/
def runOp (op : HostOp) (s : State) : Result :=
  match op with
  | .transact a w => hostTransact a w s
  | .readReg x off => andThen (fun t => varSet x (t.readData.setWidth 64) t) (hostTransact (readAccess off) 0 s)
  | .writeReg off e => hostTransact (writeAccess off) ((evalExpr s e).setWidth 32) s
  | .hostRead a n => .next (hostRead a n s)
  | .hostWrite a v => hostWrite a v s
  | .memr x w e =>
    let t := hostRead (evalExpr s e) (memBytes w) s
    .next (varSet x (BitVec.ofNat 64 (le t.readBytes)) t)
  | .memw w a e => hostWrite (evalExpr s a) (toLe (memBytes w) (evalExpr s e).toNat) s
  | .assign x e => .next (varSet x (evalExpr s e) s)
  | .seq p q => .next (push p (push q s))
  | .ifBits x m body => .next (if varGet x s &&& evalExpr s m ≠ 0 then push body s else s)
  | .untilBits x m body => .next (push body (push (.untilTest x m body) s))
  | .untilTest x m body => .next (if varGet x s &&& evalExpr s m ≠ 0 then s else push (.untilBits x m body) s)
  | .resolve regions => .next (resolveBase regions s)
  | .stationAddress x y z =>
    .next { s with host := { s.host with
      mac := some (stationBytes ((varGet x s).setWidth 16) ((varGet y s).setWidth 16) ((varGet z s).setWidth 16)) } }
  | .reach p => .next { s with host := { s.host with init := p } }
  | .halt why => .next (haltHost why s)

/-- HOST's turn: the next operation of its program; with none left HOST does nothing (R361). -/
def hostStep (s : State) : Result :=
  match s.host.prog with
  | [] => .next s
  | op :: rest => runOp op (setProg rest s)

end Sys2Proof.Machine
end

