-- ==== Sys2Proof/Machine/Link.lean ====
section
/-! DEFINITION. LINK's own steps: link up, link down, other causes (spec R307, R308). -/

namespace Sys2Proof.Machine

open Config

/-- The link-up step is enabled (R308). -/
def linkUpEnabled (s : State) : Bool :=
  hasAny s.regs.ctrl regMap.ctrlSlu && s.platform.linkPartner && !s.linkUp

/-- Link up (R308); without its guard LINK has no such step. -/
def linkUpStep (s : State) : Result :=
  if linkUpEnabled s then .next (setCause regMap.icrLsc { s with linkUp := true }) else .next s

/-- Link down (R308): the partner may go away, or SLU was cleared. -/
def linkDownStep (s : State) : Result :=
  if s.linkUp then .next (setCause regMap.icrLsc { s with linkUp := false }) else .next s

/-- Other causes (R307): any subset of the bits outside the named six. -/
def otherCausesStep (v : Word) (s : State) : Result := .next (setCause (v &&& ~~~regMap.icrNamed) s)

end Sys2Proof.Machine
end

