-- ==== Sys2Proof/Machine/Receive.lean ====
section
/-! DEFINITION. Frame arrival (a LINK step) and the receive engine's piece step (spec R220 to R238). -/

namespace Sys2Proof.Machine

open Config

/-! ### Acceptance (R221 to R231) -/

/-- Byte k of the destination address; one that a frame shorter than six bytes does not have is free (R222; log 13). -/
def dstByte (f : Frame) (k : Nat) : Byte := f.bytes.getD k (missingByte k)

/-- The destination address is broadcast (R222). -/
def isBroadcast (f : Frame) : Bool := (List.range 6).all fun k => dstByte f k == 0xFF

/-- The destination address is multicast (R222). -/
def isMulticast (f : Frame) : Bool := (dstByte f 0).getLsbD 0 && !isBroadcast f

/-- The destination address is unicast (R222). -/
def isUnicast (f : Frame) : Bool := !isBroadcast f && !isMulticast f

/-- The registers as ExactFilter sees them: the stored registers (log 8), and with MPE = 1 a table of zeros in place of MTA,
whatever MTA holds, because the table has no effect on acceptance then (R176). -/
def filterRegs (g : Regs) : Regs :=
  if hasAny g.rctl regMap.rctlMpe then { g with mta := Vector.replicate 128 0 } else g

/-- accept(F) (R223, R176). -/
def accepts (f : Frame) (g : Regs) : Bool :=
  (isBroadcast f && hasAny g.rctl regMap.rctlBam) || (isMulticast f && hasAny g.rctl regMap.rctlMpe) ||
    (isUnicast f && hasAny g.rctl regMap.rctlUpe) || exactFilter f (filterRegs g)

/-- Why a frame that arrives is not kept, the tests in the order of R221, R223, R224 and R225; `none` for a frame that passes
them. -/
def dropReason (f : Frame) (g : Regs) : Option DropReason :=
  if !hasAny g.rctl regMap.rctlEn then some .disabled
  else if !accepts f g then some .filtered
  else if f.bytes.length < minFrame then some .runt
  else if maxFrame < f.bytes.length then some .tooLong
  else if maxStdFrame < f.bytes.length ∧ hasAny g.rctl regMap.rctlLpe = false then some .long
  else if f.err ≠ 0 ∧ hasAny g.rctl regMap.rctlSbp = false then some .error
  else none

/-- The stored bytes S (R226). -/
def storedBytes (f : Frame) (rctl : Word) : List Byte :=
  if hasAny rctl regMap.rctlSecrc then f.bytes.take (f.bytes.length - fcsLen) else f.bytes

/-- The job R230 sets up for a frame, with the threshold R238 latches beside the buffer size (log 23). -/
def acceptJob (f : Frame) (g : Regs) : RxJob where
  data  := storedBytes f g.rctl
  err   := f.err &&& regMap.rxdErrMask
  k     := pieceCount (storedBytes f g.rctl).length (bufSize g.rctl)
  j     := 0
  bsize := bufSize g.rctl
  free0 := ringOwned g.rx
  thr   := threshold g.rctl (ringCount g.rx)

/-- A frame arrives only while the link is up and RXE is idle (R221). -/
def frameEnabled (s : State) : Bool := s.linkUp && !isStoring s

/-- The fate of a frame that arrives (R221 to R231), the arrival already in the history. -/
def frameFate (f : Frame) (s : State) : State :=
  match dropReason f s.regs with
  | some r => record (.drop f r) s
  | none =>
    if (acceptJob f s.regs).k ≤ ringOwned s.regs.rx then { s with rxPhase := .storing (acceptJob f s.regs) }
    else setCause regMap.icrRxo (record (.drop f .noDescriptors) s)

/-- Frame arrival (R221); without its guard the frame is not sent. -/
def frameArrives (f : Frame) (s : State) : Result :=
  if frameEnabled s then .next (frameFate f (record (.frameIn f) s)) else .next s

/-! ### Storing (R232 to R238) -/

/-- The bytes of piece j (R228, R232). -/
def pieceBytes (job : RxJob) : List Byte :=
  (job.data.drop (job.j * job.bsize)).take (min job.bsize (job.data.length - job.j * job.bsize))

/-- The piece at hand is the frame's last (R232). -/
def isLastPiece (job : RxJob) : Bool := job.j + 1 == job.k

/-- A receive descriptor's bytes with the fields R233 gives them: length, checksum draw, STATUS, ERRORS, SPECIAL. -/
def rxDescBytes (len : Nat) (last : Bool) (err : Byte) (csum : Half) : List Byte :=
  putField regMap.rxdLen (toLe regMap.rxdLen.len len)
    (putField regMap.rxdCsum (toLe regMap.rxdCsum.len csum.toNat)
      (putField regMap.rxdStatus [regMap.rxdDd ||| if last then regMap.rxdEop else 0]
        (putField regMap.rxdErrors [if last then err else 0]
          (putField regMap.rxdSpecial (toLe regMap.rxdSpecial.len 0) (List.replicate regMap.descSize 0)))))

/-- WriteBack(len, last) (R233): the write-back half of those bytes; proofs use `rxWriteBack_eq`, which writes it out. -/
@[irreducible] def rxWriteBack (len : Nat) (last : Bool) (err : Byte) (csum : Half) : List Byte :=
  fieldBytes regMap.rxdBack (rxDescBytes len last err csum)

/-- RDMTS's cause (R236): the free count crosses the threshold downward in this frame. The threshold is the one latched at
accept, so that a write of RDMTS during the frame affects only later frames (R146, R238, D44; log 23). -/
def crossesThreshold (job : RxJob) (g : Regs) : Bool :=
  decide (job.thr < job.free0) && decide (ringOwned g.rx ≤ job.thr)

/-- EndOfFrame (R235, R236), after the head advance. -/
def endOfFrame (job : RxJob) (s : State) : State :=
  { setCause (regMap.icrRxt0 ||| if crossesThreshold job s.regs then regMap.icrRxdmt0 else 0) s with rxPhase := .idle }

/-- Head advance, piece count, and the end of the frame (R232, R234). -/
def afterPiece (job : RxJob) (s : State) : State :=
  if isLastPiece job then
    endOfFrame job (setRingRegs .rx { s.regs.rx with head := nextHead s.regs.rx } s)
  else
    { setRingRegs .rx { s.regs.rx with head := nextHead s.regs.rx } s with
        rxPhase := .storing { job with j := job.j + 1 } }

/-- The address of the descriptor at RDH (R232). -/
def rxDesc (s : State) : Addr := descAddr s.regs.rx s.regs.rx.head.toNat

/-- One piece (R232): descriptor read, data write, write-back, head advance; F12 from the first that DmaOK refuses. -/
def storePiece (job : RxJob) (s : State) : Result :=
  match dmaRead .rxe (fieldAddr (rxDesc s) regMap.descBuf) regMap.descBuf.len s with
  | .error f => raise f
  | .ok (bytes, s1) =>
    match dmaWrite .rxe (BitVec.ofNat 64 (le bytes)) (pieceBytes job) s1 with
    | .error f => raise f
    | .ok s2 =>
      match dmaWrite .rxe (fieldAddr (rxDesc s) regMap.rxdBack)
          (rxWriteBack (pieceBytes job).length (isLastPiece job) job.err (drawHalf s2).1) (drawHalf s2).2 with
      | .error f => raise f
      | .ok s3 => .next (afterPiece job s3)

/-- RXE's piece step is enabled (R232), whatever EN is (R237). -/
def rxeEnabled (s : State) : Bool :=
  match s.rxPhase with
  | .idle => false
  | .storing job => decide (job.j < job.k)

/-- RXE's turn (R232); without the guard RXE has no step. -/
def rxeStep (s : State) : Result :=
  match s.rxPhase with
  | .idle => .next s
  | .storing job => if job.j < job.k then storePiece job s else .next s

end Sys2Proof.Machine
end

