-- ==== Sys2Proof/Machine/Transmit.lean ====
section
/-! DEFINITION. The transmit engine's descriptor step (spec R260 to R273). -/

namespace Sys2Proof.Machine

open Config

/-- The descriptor in its 16 bytes (R113, R261). -/
def txDescOf (bytes : List Byte) : TxDesc where
  addr := BitVec.ofNat 64 (le (fieldBytes regMap.descBuf bytes))
  len  := le (fieldBytes regMap.txdLen bytes)
  cmd  := bytes.getD regMap.txdCmd.off 0
  sta  := bytes.getD regMap.txdSta.off 0

/-- The CMD byte has the bit (R114). -/
def cmdHas (cmd mask : Byte) : Bool := (cmd &&& mask) != 0

/-- Short-packet padding (R266). -/
def padFrame (tctl : Word) (frame : List Byte) : List Byte :=
  if hasAny tctl regMap.tctlPsp then frame ++ List.replicate (padLen - frame.length) 0 else frame

/-- The frame as it is emitted: padding, then the FCS where IFCS is set (R266, R267). -/
def finishFrame (tctl : Word) (cmd : Byte) (frame : List Byte) : List Byte :=
  if cmdHas cmd regMap.txdIfcs then padFrame tctl frame ++ (fcs (padFrame tctl frame)).toList else padFrame tctl frame

/-- End of packet (R264, R272): emit the assembled frame, if there is one, whatever the link's state. -/
def endOfPacket (cmd : Byte) (s : State) : State :=
  if cmdHas cmd regMap.txdEop then
    match s.txAcc with
    | [] => s
    | b :: bs => record (.frameOut (finishFrame s.regs.tctl cmd (b :: bs))) { s with txAcc := [] }
  else s

/-- The head advance and the queue-empty cause (R270). -/
def advanceTdh (s : State) : State :=
  let s1 := setRingRegs .tx { s.regs.tx with head := nextHead s.regs.tx } s
  if s.regs.tx.tail.toNat < ringCount s.regs.tx ∧ nextHead s.regs.tx = s.regs.tx.tail then
    setCause regMap.icrTxqe s1
  else s1

/-- Data read (R263). -/
def txData (d : TxDesc) (s : State) : Except Fault State :=
  if d.len = 0 then .ok s
  else
    match dmaRead .txe d.addr d.len s with
    | .error f => .error f
    | .ok (bytes, s1) => .ok { s1 with txAcc := s1.txAcc ++ bytes }

/-- The STA byte a report writes: DD, with bits 7:4 as they were read (R115, R268). -/
def reportedSta (sta : Byte) : Byte := (sta &&& regMap.txdStaKeep) ||| regMap.txdDd

/-- Status write-back and its cause (R268, R269). -/
def txReport (a : Addr) (d : TxDesc) (s : State) : Except Fault State :=
  if cmdHas d.cmd regMap.txdRs then
    match dmaWrite .txe (fieldAddr a regMap.txdSta) [reportedSta d.sta] s with
    | .error f => .error f
    | .ok s1 => .ok (setCause regMap.icrTxdw s1)
  else .ok s

/-- The address of the descriptor at TDH (R261). -/
def txDescAddr (s : State) : Addr := descAddr s.regs.tx s.regs.tx.head.toNat

/-- One descriptor (R261 to R270): fetch, command check, data, end of packet, report, head advance. -/
def sendDesc (s : State) : Result :=
  match dmaRead .txe (txDescAddr s) regMap.descSize s with
  | .error f => raise f
  | .ok (bytes, s1) =>
    if cmdHas (txDescOf bytes).cmd regMap.txdUnmodelled then
      raise (.txUnmodelledDesc s.regs.tx.head.toNat (txDescOf bytes).cmd)
    else
      match txData (txDescOf bytes) s1 with
      | .error f => raise f
      | .ok s2 =>
        match txReport (txDescAddr s) (txDescOf bytes) (endOfPacket (txDescOf bytes).cmd s2) with
        | .error f => raise f
        | .ok s3 => .next (advanceTdh s3)

/-- TXE's step is enabled (R260, R271). -/
def txeEnabled (s : State) : Bool :=
  hasAny s.regs.tctl regMap.tctlEn && ringCount s.regs.tx != 0 &&
    decide (s.regs.tx.head.toNat < ringCount s.regs.tx) && decide (0 < ringOwned s.regs.tx)

/-- TXE's turn (R260); without the guard TXE has no step. -/
def txeStep (s : State) : Result := if txeEnabled s then sendDesc s else .next s

end Sys2Proof.Machine
end

