-- ==== Sys2Proof/Machine/Turn.lean ====
section
/-! DEFINITION. The agents' turns (spec R7, R14, R325, R361): whose step is next, and that step. -/

namespace Sys2Proof.Machine

/-- Whose step is next: the first turn listed, and a free value once none is listed (log 1). -/
def nextTurn (s : State) : Turn :=
  match s.turns with
  | t :: _ => t
  | [] => Config.freeTurn s.draws

/-- The state with that turn taken off. -/
def popTurn (s : State) : State :=
  match s.turns with
  | _ :: ts => { s with turns := ts }
  | [] => { s with draws := s.draws + 1 }

/-- One atomic step of the agent whose turn it is (R14). An agent with no enabled step does nothing (log 14). -/
def takeTurn (t : Turn) (s : State) : Result :=
  match t with
  | .host => hostStep s
  | .eec => eecStep s
  | .rxe => rxeStep s
  | .txe => txeStep s
  | .linkUp => linkUpStep s
  | .linkDown => linkDownStep s
  | .frame f => frameArrives f s
  | .otherCauses v => otherCausesStep v s

/-- The steps weak fairness applies to, with their guards; HOST is fair while it has a program (R361). -/
def fairEnabled (t : Turn) (s : State) : Bool :=
  match t with
  | .host => !s.host.prog.isEmpty
  | .eec => eecEnabled s
  | .rxe => rxeEnabled s
  | .txe => txeEnabled s
  | .linkUp => linkUpEnabled s
  | .linkDown => s.linkUp && !hasAny s.regs.ctrl Config.regMap.ctrlSlu
  | .frame _ => false
  | .otherCauses _ => false

/-- A transaction placed as HOST's next operation, and HOST's turn placed next (log 2). -/
def placeTransaction (a w : Word) (s : State) : State :=
  { push (.transact a w) s with turns := .host :: s.turns }

end Sys2Proof.Machine
end

