-- ==== Sys2Proof/Machine/Step.lean ====
section
/-! DEFINITION. One step of the machine: one atomic step of one agent (spec R14); a faulted state has no further step
(R54, R311). And where a transaction is placed so that the next step runs it. -/

namespace Sys2Proof.Machine

/-- One step (R14, R54, R311). -/
def step (s : State) : Host.Outcome State Fault Refusal :=
  match s.fault with
  | some f => raise f
  | none => takeTurn (nextTurn s) (popTurn s)

/-- The state with the transaction of the bits `w` placed where the next step finds it (log 2). -/
def State.withFetchWord (s : State) (nbits w : Nat) : State :=
  placeTransaction (wordsOfBits nbits w).1 (wordsOfBits nbits w).2 s

end Sys2Proof.Machine
end

