-- ==== Sys2Proof/Machine/BringUp.lean ====
section
/-! DEFINITION. The host programs the spec gives: the pseudo-transactions (R131), the EEPROM procedure (R206, R207), the
bring-up (R345, R346) and the interrupt handler (R321). -/

namespace Sys2Proof.Machine

open Config

/-- A register word as a literal of the script. -/
def litWord (w : Word) : HostExpr := .lit (w.setWidth 64)

/-- `SET32 REG, m` with t in variable 0 (R131). -/
def set32 (off : Off) (m : Word) : List HostOp := [.readReg 0 off, .writeReg off (.or (.var 0) (litWord m))]

/-- `ACK m` (R131). -/
def ack (m : Word) : List HostOp := [.writeReg regMap.icr (litWord m)]

/-- `POLL REG, m -> x` (R131). -/
def poll (off : Off) (m : Word) (x : HostVar) : List HostOp := [.untilBits x (litWord m) (.readReg x off)]

/-- The EEPROM command word for an address (R120, R206). -/
def eepromCommand (a : Byte) : Word := (a.setWidth 32 <<< regMap.eerdAddrShift) ||| regMap.eerdStart

/-- `EEREAD a -> x` with t in variable 0 (R131, R206). -/
def eeread (a : Byte) (x : HostVar) : List HostOp :=
  .writeReg regMap.eerd (litWord (eepromCommand a)) ::
    (poll regMap.eerd regMap.eerdDone 0 ++ [.assign x (.shr (.var 0) regMap.eerdDataShift)])

/-- `DRAIN` (R131, D43). -/
def drain : List HostOp := [.writeReg regMap.icr (litWord 0xFFFFFFFF)]

/-- The station address: three reads at addresses 0, 1, 2 (R207); the words in variables 1, 2, 3. -/
def readMac : List HostOp := eeread 0 1 ++ eeread 1 2 ++ eeread 2 3 ++ [.stationAddress 1 2 3]

/-- The receive-control flag union the driver writes, EN = 0 (R107). -/
def rctlUnion : Word :=
  regMap.rctlSbp ||| regMap.rctlUpe ||| regMap.rctlMpe ||| regMap.rctlSecrc ||| regMap.rctlLpe ||| regMap.rctlBam

/-- The transmit control the driver writes (R107). -/
def tctlUnion : Word := regMap.tctlEn ||| regMap.tctlPsp

/-- `ReceiveRing.init(16)` (R345 step 9a). -/
def rxInit (rdesc : Addr) (buf : Nat → Addr) : List HostOp :=
  ((List.range bufferCount).flatMap fun i =>
    [.memw .w64 (.lit (fieldAddr (rdesc + BitVec.ofNat 64 (regMap.descSize * i)) regMap.descBuf)) (.lit (buf i)),
     .memw .w64 (.lit (fieldAddr (rdesc + BitVec.ofNat 64 (regMap.descSize * i)) regMap.rxdBack)) (.lit 0)]) ++
  [.writeReg regMap.rdbal (.lit rdesc), .writeReg regMap.rdbah (.shr (.lit rdesc) 32),
   .writeReg regMap.rdlen (.lit (BitVec.ofNat 64 (regMap.descSize * bufferCount))),
   .writeReg regMap.rdh (.lit 0), .writeReg regMap.rdt (.lit (BitVec.ofNat 64 bufferCount)),
   .writeReg regMap.rctl (litWord rctlUnion)]

/-- `TransmitRing.init(16)` (R345 step 9b). -/
def txInit (tdesc : Addr) : List HostOp :=
  ((List.range bufferCount).flatMap fun i =>
    [.memw .w64 (.lit (tdesc + BitVec.ofNat 64 (regMap.descSize * i))) (.lit 0),
     .memw .w64 (.lit (tdesc + BitVec.ofNat 64 (regMap.descSize * i) + 8)) (.lit 0)]) ++
  [.writeReg regMap.tdbal (.lit tdesc), .writeReg regMap.tdbah (.shr (.lit tdesc) 32),
   .writeReg regMap.tdlen (.lit (BitVec.ofNat 64 (regMap.descSize * bufferCount))),
   .writeReg regMap.tdh (.lit 0), .writeReg regMap.tdt (.lit (BitVec.ofNat 64 bufferCount)),
   .writeReg regMap.tctl (litWord tctlUnion)]

/-- Steps 3 to 10 of the bring-up, with the marks of R346; step 4 has no device transaction (R345). -/
def deviceInit (rdesc tdesc : Addr) (buf : Nat → Addr) : List HostOp :=
  readMac ++ [.reach .addressLoaded] ++
  set32 regMap.ctrl regMap.ctrlSlu ++
  ((List.range 128).map fun i => .writeReg (mtaOff (BitVec.ofNat 7 i)) (.lit 0)) ++
  [.writeReg regMap.ims (litWord regMap.icrRxt0)] ++
  drain ++
  rxInit rdesc buf ++ txInit tdesc ++ [.reach .ringsConfigured] ++
  set32 regMap.rctl regMap.rctlEn ++ [.reach .enabled]

/-- The bring-up program (R343 to R346): resolution first, then steps 3 to 10. -/
def bringUp (regions : List (Addr × Nat)) (rdesc tdesc : Addr) (buf : Nat → Addr) : List HostOp :=
  [.resolve regions, .reach .mmioResolved] ++ deviceInit rdesc tdesc buf

/-- The source's interrupt handler, t in variable 0 (R321). -/
def interruptHandler : List HostOp :=
  [.readReg 0 regMap.icr, .ifBits 0 (litWord regMap.icrRxt0) (.writeReg regMap.icr (litWord regMap.icrRxt0))]

end Sys2Proof.Machine
end

