-- ==== Sys2Proof/Safety.lean ====
section
/-! DEFINITION. The terms claims use: the record of a fault (spec R54), quiescence (R362), runs and weak fairness (R361), the
receive filter (R222, R223) and the owned bytes (R52) as the rules write them, and the invariants every step keeps. -/

namespace Sys2Proof.Safety

open Sys2Proof.Machine Sys2Proof.Config

/-- The state after a step with R54's record: a step that faults leaves the state it found, with the fault in `fault`. -/
def settle (s : State) : State :=
  match step s with
  | .next t => t
  | .fault f => s.recordFault f
  | .refused _ => s

/-- A run is quiescent (R362): HOST's program has ended or the run has faulted, RXE is idle and no EEPROM read is in progress. -/
def quiescent (s : State) : Bool := (s.host.prog.isEmpty || s.fault.isSome) && !isStoring s && !s.eec.busy

/-- A run that never stops: each state is what the step before it answers. -/
def IsRun (run : Nat → State) : Prop := ∀ n, step (run n) = .next (run (n + 1))

/-- Weak fairness (R361): a step of the listed kinds that stays enabled from some point on is taken after it. -/
def WeaklyFair (run : Nat → State) : Prop :=
  ∀ t n, (∀ m, n ≤ m → fairEnabled t (run m) = true) → ∃ m, n ≤ m ∧ nextTurn (run m) = t

/-! ### The receive filter and the owned bytes, as the rules write them -/

/-- accept(F) (R222, R223, R176): a broadcast frame, all six destination bytes 0xFF, with BAM (bit 15 of RCTL); a multicast frame, bit 0
of the first byte set and not broadcast, with MPE (bit 4); any other frame with UPE (bit 3); or ExactFilter over the stored registers
(log 8), which with MPE = 1 see a table of zeros in place of MTA, whatever MTA holds. A destination byte that the frame does not
have is free (log 13). -/
def FilterAccepts (f : Frame) (g : Regs) : Prop :=
  let dst (k : Nat) : Byte := f.bytes.getD k (missingByte k)
  let broadcast : Prop := ∀ k < 6, dst k = 0xFF
  let multicast : Prop := (dst 0).getLsbD 0 = true ∧ ¬broadcast
  (broadcast ∧ g.rctl.getLsbD 15 = true) ∨ (multicast ∧ g.rctl.getLsbD 4 = true) ∨
    (¬broadcast ∧ ¬multicast ∧ g.rctl.getLsbD 3 = true) ∨
      exactFilter f { g with mta := if g.rctl.getLsbD 4 = true then Vector.replicate 128 0 else g.mta } = true

/-- An index of `Owned(r) = {(h + j) mod N : 0 <= j < D(h, t)}` (R52). -/
def OwnedIndex (x : RingRegs) (i : Nat) : Prop :=
  ∃ j < ownedCount (ringCount x) x.head.toNat x.tail.toNat, i = (x.head.toNat + j) % ringCount x

/-- A byte of `[DescAddr(r, i), DescAddr(r, i) + 16)` for an owned index i (R52). -/
def OwnedDescByte (x : RingRegs) (a : Addr) : Prop := ∃ i, OwnedIndex x i ∧ (a - descAddr x i).toNat < 16

/-- A byte of `[a_i, a_i + BufSize(RCTL))` for an owned index i of the receive ring, a_i the address in the descriptor's bytes 0 to 7
as memory holds it now (R52). -/
def OwnedRxBufferByte (s : State) (a : Addr) : Prop :=
  ∃ i, OwnedIndex s.regs.rx i ∧
    (a - BitVec.ofNat 64 (le (readBytes s.mem (descAddr s.regs.rx i) 8))).toNat < bufSize s.regs.rctl

/-- A byte of `[a_i, a_i + len_i)` for an owned index i of the transmit ring, len_i the length in the descriptor's bytes 8 and 9
(R52, R113). -/
def OwnedTxBufferByte (s : State) (a : Addr) : Prop :=
  ∃ i, OwnedIndex s.regs.tx i ∧
    (a - BitVec.ofNat 64 (le (readBytes s.mem (descAddr s.regs.tx i) 8))).toNat <
      le (readBytes s.mem (descAddr s.regs.tx i + 8) 2)

/-- A byte of an owned descriptor or of an owned buffer of either ring (R52). -/
def OwnedByte (s : State) (a : Addr) : Prop :=
  OwnedDescByte s.regs.rx a ∨ OwnedDescByte s.regs.tx a ∨ OwnedRxBufferByte s a ∨ OwnedTxBufferByte s a

/-! ### Invariants -/

/-- Host memory is in its canonical form. -/
def MemCanonical (s : State) : Prop := Memory.wf s.mem = true

/-- The hardwired bits of xDBAL and xDLEN read 0 and RCTL and TCTL hold no bit or encoding outside their tables (R32, R33,
R35, R36, R37). -/
def RegistersLegal (s : State) : Prop :=
  s.regs.rx.bal &&& ~~~regMap.dbalMask = 0 ∧ s.regs.tx.bal &&& ~~~regMap.dbalMask = 0 ∧
  s.regs.rx.len &&& ~~~regMap.dlenMask = 0 ∧ s.regs.tx.len &&& ~~~regMap.dlenMask = 0 ∧
  rctlLegal s.regs.rctl = true ∧ tctlLegal s.regs.tctl = true

/-- An enabled ring has descriptors and its head lies among them (R155, R178, R234). -/
def RingsReady (s : State) : Prop := ∀ r, ringEnabled r s = true → enableOK r s = true

/-- EERD.DONE is not shown while a read is in progress, and shows data once it is (R26, R46). -/
def EecConsistent (s : State) : Prop :=
  (s.eec.busy = true → s.eec.done = false) ∧ (s.eec.done = true → s.eec.data ≠ none)

/-- The descriptors a frame in progress still needs are owned by the device (R229, R238), and pieces are left. -/
def ReservationHeld (s : State) : Prop :=
  ∀ job, s.rxPhase = .storing job →
    job.j < job.k ∧ job.k - job.j ≤ ringOwned s.regs.rx ∧
    0 < job.bsize ∧ job.k = pieceCount job.data.length job.bsize

/-- Nothing is enabled but LINK's other causes: HOST has no program, no engine has work, the link is down and asked for by no
one (R342). -/
def Quiet (s : State) : Prop :=
  s.fault = none ∧ s.host.prog = [] ∧ s.eec.busy = false ∧ s.rxPhase = .idle ∧
  hasAny s.regs.tctl regMap.tctlEn = false ∧ hasAny s.regs.ctrl regMap.ctrlSlu = false ∧ s.linkUp = false

end Sys2Proof.Safety
end

