-- ==== Sys2Proof/Certificates/Slice0/Obligations.lean ====
section
/-! DEFINITION. The statements for the provers, from the numbered rules of spec/. Register numbers and masks are written as the
rules write them, so that a statement does not repeat the model's own names for them. -/

open Sys2Proof Sys2Proof.Machine Sys2Proof.Config Sys2Proof.Safety

/-! ### Encoding (R100, R101, R104, R105) -/

/-- R101, R104, R105: no bit of an encoding is dropped, for every instruction and every operand. -/
def Obligations.DecodeOfEncodeIsIdentity : Prop :=
  ∀ i : Instr, decode (encode i).1 (encode i).2 = .ok i

/-- R101: an instruction is decoded from one access word only, its own, and a write from its own data word. -/
def Obligations.DecodedTransactionIsItsEncoding : Prop :=
  ∀ (a w : Word) (i : Instr), decode a w = .ok i → (encode i).1 = a ∧ (isWriteAccess a = true → (encode i).2 = w)

/-- R101: the decoder accepts exactly the access words that pass the four tests. -/
def Obligations.DecoderAcceptsExactlyWellFormedAccess : Prop :=
  ∀ a w : Word, (∃ i, decode a w = .ok i) ↔ accessWf a = true

/-- R101: the tests decide in the order HI, SZ, alignment, lookup. -/
def Obligations.DecodeTestsInOrder : Prop :=
  ∀ a w : Word,
    (a.extractLsb' 17 12 ≠ 0 → decode a w = .error .outsideWindow) ∧
    (a.extractLsb' 17 12 = 0 → a.extractLsb' 29 2 ≠ 0 → decode a w = .error .badWidth) ∧
    (a.extractLsb' 17 12 = 0 → a.extractLsb' 29 2 = 0 → a.extractLsb' 0 2 ≠ 0 → decode a w = .error .misaligned) ∧
    (a.extractLsb' 17 12 = 0 → a.extractLsb' 29 2 = 0 → a.extractLsb' 0 2 = 0 → lookup (a.extractLsb' 0 17) = none →
      decode a w = .error .unmapped)

/-- R100, R104, R105: access words written out from the rules, one of each family. -/
def Obligations.SpecWordsDecode : Prop :=
  decode 0x80000000 0x40 = .ok (.wrCtrl 0x40) ∧ decode 0x00000014 0 = .ok .rdEerd ∧
  decode 0x800000C0 0x80 = .ok (.wrIcr 0x80) ∧ decode 0x80000100 2 = .ok (.wrRctl 2) ∧
  decode 0x80002808 256 = .ok (.wrRdlen 256) ∧ decode 0x00003818 0 = .ok .rdTdt ∧
  decode 0x00005214 0 = .ok (.rdMta 5) ∧ decode 0x800053FC 0 = .ok (.wrMta 127 0)

/-! ### The step (R14, R54, R140, R311) -/

/-- R140: HOST's turn runs the transaction at the head of its program as the decoded row's rule says; around it the step takes
the turn off the schedule and the transaction off the program. -/
def Obligations.StepRunsDecodedTransaction : Prop :=
  ∀ (s : State) (a w : Word) (i : Instr) (rest : List HostOp) (ts : List Turn),
    s.fault = none → s.turns = .host :: ts → s.host.prog = .transact a w :: rest → decode a w = .ok i →
    step s = exec i { s with turns := ts, host := { s.host with prog := rest } }

/-- R140: a decoding fault is the whole of the step, with the fault code of R101. -/
def Obligations.StepFaultsOnBadAccess : Prop :=
  ∀ (s : State) (a w : Word) (e : DecodeError) (rest : List HostOp) (ts : List Turn),
    s.fault = none → s.turns = .host :: ts → s.host.prog = .transact a w :: rest → decode a w = .error e →
    step s = .fault (match e with
      | .outsideWindow => .unmappedOffset a
      | .badWidth => .badWidth a
      | .misaligned => .misaligned a
      | .unmapped => .unmappedOffset a)

/-- Log 2 (the model's choice of where a transaction is placed): the next step runs a placed transaction, in any state
that is not faulted, and finds the state otherwise as it was. -/
def Obligations.PlacedTransactionRunsNext : Prop :=
  ∀ (s : State) (nbits w : Nat) (i : Instr), s.fault = none → decodeTableWord nbits w = some i →
    step (s.withFetchWord nbits w) = exec i s

/-- R54, R311: a fault is recorded once, is never cleared, and a faulted state has no further step. -/
def Obligations.RecordedFaultIsSticky : Prop :=
  ∀ (s : State) (f : Fault), s.fault = none → step s = .fault f →
    settle s = { s with fault := some f } ∧ step (settle s) = .fault f ∧ settle (settle s) = settle s

/-! ### Register reads (R141, R143, R145, R147, R169, R171, R175, R201) -/

/-- R141, R145, R147, R175: a read of CTRL, RCTL, TCTL or MTA[i] returns the stored value and changes nothing else. -/
def Obligations.ControlReadsReturnStoredValue : Prop :=
  ∀ (s : State) (i : BitVec 7),
    let ret (off : Off) (v : Word) : Result :=
      .next { s with readData := v, history := s.history ++ [.transaction off false v] }
    exec .rdCtrl s = ret 0x00000 s.regs.ctrl ∧ exec .rdRctl s = ret 0x00100 s.regs.rctl ∧
    exec .rdTctl s = ret 0x00400 s.regs.tctl ∧
    exec (.rdMta i) s = ret (0x05200 + i.setWidth 17 * 4) (s.regs.mta[i.toNat]'i.isLt)

/-- R149, R151, R153, R155, R157, R159, R161, R163, R165, R167: a read of a ring register returns its value, a cursor
zero-extended, and changes nothing else. -/
def Obligations.RingReadsReturnStoredValue : Prop :=
  ∀ s : State,
    let ret (off : Off) (v : Word) : Result :=
      .next { s with readData := v, history := s.history ++ [.transaction off false v] }
    exec .rdRdbal s = ret 0x02800 s.regs.rx.bal ∧ exec .rdRdbah s = ret 0x02804 s.regs.rx.bah ∧
    exec .rdRdlen s = ret 0x02808 s.regs.rx.len ∧ exec .rdRdh s = ret 0x02810 (s.regs.rx.head.setWidth 32) ∧
    exec .rdRdt s = ret 0x02818 (s.regs.rx.tail.setWidth 32) ∧
    exec .rdTdbal s = ret 0x03800 s.regs.tx.bal ∧ exec .rdTdbah s = ret 0x03804 s.regs.tx.bah ∧
    exec .rdTdlen s = ret 0x03808 s.regs.tx.len ∧ exec .rdTdh s = ret 0x03810 (s.regs.tx.head.setWidth 32) ∧
    exec .rdTdt s = ret 0x03818 (s.regs.tx.tail.setWidth 32)

/-- R143, R171: a read of STATUS shows LU in bit 1, a read of IMS the six named mask bits (0xD7); the other bits are a draw, of
which nothing is said; nothing else changes but the draw counter. -/
def Obligations.DrawnReadsShowNamedBits : Prop :=
  ∀ s : State,
    (∃ v : Word, exec .rdStatus s = .next { s with
        readData := v, draws := s.draws + 1, history := s.history ++ [.transaction 0x00008 false v] } ∧
      v.getLsbD 1 = s.linkUp) ∧
    (∃ v : Word, exec .rdIms s = .next { s with
        readData := v, draws := s.draws + 1, history := s.history ++ [.transaction 0x000D0 false v] } ∧
      v &&& 0xD7 = s.regs.ims &&& 0xD7)

/-- R201: EERD reads ADDR in bits 15:8, DONE in bit 4, zero in the other low bits; DATA is the completed read's word, and a draw
while there is none. -/
def Obligations.EerdReadShowsProgress : Prop :=
  ∀ s : State,
    (∀ d : Half, s.eec.done = true → s.eec.data = some d →
      ∃ v : Word, exec .rdEerd s = .next { s with
          readData := v, history := s.history ++ [.transaction 0x00014 false v] } ∧
        v.extractLsb' 16 16 = d ∧ v.extractLsb' 8 8 = s.eec.addr ∧ v.extractLsb' 0 8 = 0x10) ∧
    (s.eec.done = false ∨ s.eec.data = none →
      ∃ v : Word, exec .rdEerd s = .next { s with
          readData := v, draws := s.draws + 1, history := s.history ++ [.transaction 0x00014 false v] } ∧
        v.extractLsb' 8 8 = s.eec.addr ∧ v.extractLsb' 0 8 = (if s.eec.done then 0x10 else 0))

/-- R169: a read of ICR returns it, and clears it where the parameter ICR_READ_CLEARS is true. -/
def Obligations.IcrReadClearsUnderParameter : Prop :=
  ∀ s : State,
    exec .rdIcr s = .next { s with
      readData := s.regs.icr
      regs := { s.regs with icr := if s.platform.icrReadClears then 0 else s.regs.icr }
      history := s.history ++ [.transaction 0x000C0 false s.regs.icr] }

/-- R144, R173: STATUS is read-only and IMC write-only; each of the two transactions, at its encoding, faults in every state. -/
def Obligations.WrongDirectionStops : Prop :=
  ∀ (s : State) (w : Word),
    decode 0x80000008 w = .ok (.wrStatus w) ∧ decode 0x000000D8 w = .ok .rdImc ∧
    exec (.wrStatus w) s = .fault (.writeReadOnly 0x80000008) ∧ exec .rdImc s = .fault (.readWriteOnly 0x000000D8)

/-! ### Register writes (R142, R146, R148, R150 to R168, R170, R172, R174, R176, R202) -/

/-- R142: a write of CTRL may change SLU (bit 6) and nothing else; F05 otherwise. -/
def Obligations.CtrlWriteChangesOnlySlu : Prop :=
  ∀ (s : State) (w : Word),
    ((w ^^^ s.regs.ctrl) &&& 0xFFFFFFBF = 0 →
      exec (.wrCtrl w) s = .next { s with
        regs := { s.regs with ctrl := w }, history := s.history ++ [.transaction 0x00000 true w] }) ∧
    ((w ^^^ s.regs.ctrl) &&& 0xFFFFFFBF ≠ 0 → exec (.wrCtrl w) s = .fault (.unmodelledField 0x80000000 w))

/-- R146, R178: a write of RCTL stores it if it sets no must-be-zero bit and no reserved encoding (F05) and, where it turns EN from
0 to 1, N is not 0 and the head lies below N (F08). -/
def Obligations.RctlWriteChecks : Prop :=
  ∀ (s : State) (w : Word),
    let legal := w &&& 0xF9FC4CC1 = 0 ∧ w &&& 0x300 ≠ 0x300 ∧ ¬(w.getLsbD 25 = true ∧ w &&& 0x30000 = 0)
    let turnsOn := w.getLsbD 1 = true ∧ s.regs.rctl.getLsbD 1 = false
    let ready := ringCount s.regs.rx ≠ 0 ∧ s.regs.rx.head.toNat < ringCount s.regs.rx
    (legal → (turnsOn → ready) →
      exec (.wrRctl w) s = .next { s with
        regs := { s.regs with rctl := w }, history := s.history ++ [.transaction 0x00100 true w] }) ∧
    (¬legal → exec (.wrRctl w) s = .fault (.unmodelledField 0x80000100 w)) ∧
    (legal → turnsOn → ¬ready → exec (.wrRctl w) s = .fault (.badEnable 0x80000100 w))

/-- R148, R178: the same for TCTL, whose must-be-zero bits are 0, 2 and 31:22. -/
def Obligations.TctlWriteChecks : Prop :=
  ∀ (s : State) (w : Word),
    let legal := w &&& 0xFFC00005 = 0
    let turnsOn := w.getLsbD 1 = true ∧ s.regs.tctl.getLsbD 1 = false
    let ready := ringCount s.regs.tx ≠ 0 ∧ s.regs.tx.head.toNat < ringCount s.regs.tx
    (legal → (turnsOn → ready) →
      exec (.wrTctl w) s = .next { s with
        regs := { s.regs with tctl := w }, history := s.history ++ [.transaction 0x00400 true w] }) ∧
    (¬legal → exec (.wrTctl w) s = .fault (.unmodelledField 0x80000400 w)) ∧
    (legal → turnsOn → ¬ready → exec (.wrTctl w) s = .fault (.badEnable 0x80000400 w))

/-- R150, R152, R160, R162, R177, R53: a write of a ring's base stores it, the low half with bits 3:0 dropped, while the ring is
not enabled, and faults F06 while it is: the receive ring while EN is 1 or a frame is in progress, the transmit ring while EN is
1. -/
def Obligations.BaseWrites : Prop :=
  ∀ (s : State) (w : Word),
    (s.regs.rctl.getLsbD 1 = false → s.rxPhase = .idle →
      exec (.wrRdbal w) s = .next { s with
        regs := { s.regs with rx := { s.regs.rx with bal := w &&& 0xFFFFFFF0 } }
        history := s.history ++ [.transaction 0x02800 true w] } ∧
      exec (.wrRdbah w) s = .next { s with
        regs := { s.regs with rx := { s.regs.rx with bah := w } }
        history := s.history ++ [.transaction 0x02804 true w] }) ∧
    (s.regs.rctl.getLsbD 1 = true ∨ s.rxPhase ≠ .idle →
      exec (.wrRdbal w) s = .fault (.configWhileEnabled 0x80002800 w) ∧
      exec (.wrRdbah w) s = .fault (.configWhileEnabled 0x80002804 w)) ∧
    (s.regs.tctl.getLsbD 1 = false →
      exec (.wrTdbal w) s = .next { s with
        regs := { s.regs with tx := { s.regs.tx with bal := w &&& 0xFFFFFFF0 } }
        history := s.history ++ [.transaction 0x03800 true w] } ∧
      exec (.wrTdbah w) s = .next { s with
        regs := { s.regs with tx := { s.regs.tx with bah := w } }
        history := s.history ++ [.transaction 0x03804 true w] }) ∧
    (s.regs.tctl.getLsbD 1 = true →
      exec (.wrTdbal w) s = .fault (.configWhileEnabled 0x80003800 w) ∧
      exec (.wrTdbah w) s = .fault (.configWhileEnabled 0x80003804 w))

/-- R154, R164, R177: a write of xDLEN keeps bits 19:7; F06 while the ring is enabled, before F05 for bits 31:20. -/
def Obligations.LengthWrites : Prop :=
  ∀ (s : State) (w : Word),
    (s.regs.rctl.getLsbD 1 = false → s.rxPhase = .idle →
      (w.extractLsb' 20 12 = 0 → exec (.wrRdlen w) s = .next { s with
        regs := { s.regs with rx := { s.regs.rx with len := w &&& 0x000FFF80 } }
        history := s.history ++ [.transaction 0x02808 true w] }) ∧
      (w.extractLsb' 20 12 ≠ 0 → exec (.wrRdlen w) s = .fault (.unmodelledField 0x80002808 w))) ∧
    (s.regs.rctl.getLsbD 1 = true ∨ s.rxPhase ≠ .idle →
      exec (.wrRdlen w) s = .fault (.configWhileEnabled 0x80002808 w)) ∧
    (s.regs.tctl.getLsbD 1 = false →
      (w.extractLsb' 20 12 = 0 → exec (.wrTdlen w) s = .next { s with
        regs := { s.regs with tx := { s.regs.tx with len := w &&& 0x000FFF80 } }
        history := s.history ++ [.transaction 0x03808 true w] }) ∧
      (w.extractLsb' 20 12 ≠ 0 → exec (.wrTdlen w) s = .fault (.unmodelledField 0x80003808 w))) ∧
    (s.regs.tctl.getLsbD 1 = true → exec (.wrTdlen w) s = .fault (.configWhileEnabled 0x80003808 w))

/-- R156, R166, R177: a write of xDH stores bits 15:0; F06 while the ring is enabled, before F05 for bits 31:16. -/
def Obligations.HeadWrites : Prop :=
  ∀ (s : State) (w : Word),
    (s.regs.rctl.getLsbD 1 = false → s.rxPhase = .idle →
      (w.extractLsb' 16 16 = 0 → exec (.wrRdh w) s = .next { s with
        regs := { s.regs with rx := { s.regs.rx with head := w.extractLsb' 0 16 } }
        history := s.history ++ [.transaction 0x02810 true w] }) ∧
      (w.extractLsb' 16 16 ≠ 0 → exec (.wrRdh w) s = .fault (.unmodelledField 0x80002810 w))) ∧
    (s.regs.rctl.getLsbD 1 = true ∨ s.rxPhase ≠ .idle →
      exec (.wrRdh w) s = .fault (.configWhileEnabled 0x80002810 w)) ∧
    (s.regs.tctl.getLsbD 1 = false →
      (w.extractLsb' 16 16 = 0 → exec (.wrTdh w) s = .next { s with
        regs := { s.regs with tx := { s.regs.tx with head := w.extractLsb' 0 16 } }
        history := s.history ++ [.transaction 0x03810 true w] }) ∧
      (w.extractLsb' 16 16 ≠ 0 → exec (.wrTdh w) s = .fault (.unmodelledField 0x80003810 w))) ∧
    (s.regs.tctl.getLsbD 1 = true → exec (.wrTdh w) s = .fault (.configWhileEnabled 0x80003810 w))

/-- R158, R168, R179, R53: a write of xDT stores bits 15:0; F05 for bits 31:16 first; while the ring is enabled F07 if the owned
count would shrink. That a receive frame in progress with EN = 0 counts as enabled here is the model's reading of R238 and D44
(log 25). -/
def Obligations.TailWrites : Prop :=
  ∀ (s : State) (w : Word),
    let shrinks (x : RingRegs) := ownedCount (ringCount x) x.head.toNat (w.extractLsb' 0 16).toNat <
      ownedCount (ringCount x) x.head.toNat x.tail.toNat
    let rxEnabled := s.regs.rctl.getLsbD 1 = true ∨ s.rxPhase ≠ .idle
    let txEnabled := s.regs.tctl.getLsbD 1 = true
    (w.extractLsb' 16 16 = 0 → ¬(rxEnabled ∧ shrinks s.regs.rx) → exec (.wrRdt w) s = .next { s with
      regs := { s.regs with rx := { s.regs.rx with tail := w.extractLsb' 0 16 } }
      history := s.history ++ [.transaction 0x02818 true w] }) ∧
    (w.extractLsb' 16 16 ≠ 0 → exec (.wrRdt w) s = .fault (.unmodelledField 0x80002818 w)) ∧
    (w.extractLsb' 16 16 = 0 → rxEnabled → shrinks s.regs.rx →
      exec (.wrRdt w) s = .fault (.tailRetract 0x80002818 w)) ∧
    (w.extractLsb' 16 16 = 0 → ¬(txEnabled ∧ shrinks s.regs.tx) → exec (.wrTdt w) s = .next { s with
      regs := { s.regs with tx := { s.regs.tx with tail := w.extractLsb' 0 16 } }
      history := s.history ++ [.transaction 0x03818 true w] }) ∧
    (w.extractLsb' 16 16 ≠ 0 → exec (.wrTdt w) s = .fault (.unmodelledField 0x80003818 w)) ∧
    (w.extractLsb' 16 16 = 0 → txEnabled → shrinks s.regs.tx →
      exec (.wrTdt w) s = .fault (.tailRetract 0x80003818 w))

/-- R170, R172, R174: at their encodings, a write of ICR clears the bits written as 1, a write of IMS sets them, a write of IMC
clears them in IMS; nothing else changes; a write of IMS that unmasks a pending cause raises INT at once. -/
def Obligations.InterruptRegisterWrites : Prop :=
  ∀ (s : State) (w : Word),
    decode 0x800000C0 w = .ok (.wrIcr w) ∧ decode 0x800000D0 w = .ok (.wrIms w) ∧ decode 0x800000D8 w = .ok (.wrImc w) ∧
    (s.regs.icr &&& w ≠ 0 → ∃ t, exec (.wrIms w) s = .next t ∧ t.int = true) ∧
    exec (.wrIcr w) s = .next { s with
      regs := { s.regs with icr := s.regs.icr &&& ~~~w }, history := s.history ++ [.transaction 0x000C0 true w] } ∧
    exec (.wrIms w) s = .next { s with
      regs := { s.regs with ims := s.regs.ims ||| w }, history := s.history ++ [.transaction 0x000D0 true w] } ∧
    exec (.wrImc w) s = .next { s with
      regs := { s.regs with ims := s.regs.ims &&& ~~~w }, history := s.history ++ [.transaction 0x000D8 true w] }

/-- R176, R175: a write of MTA[i] stores W in entry i, which reads back, and leaves every other entry and everything else; with MPE = 1
(bit 4 of RCTL) it has no effect on which frames the filter accepts. -/
def Obligations.MulticastTableWrites : Prop :=
  ∀ (s : State) (i : BitVec 7) (w : Word),
    ∃ t, exec (.wrMta i w) s = .next t ∧
      (∃ u, exec (.rdMta i) t = .next u ∧ u.readData = w) ∧
      (∀ j : BitVec 7, j ≠ i → t.regs.mta[j.toNat]'j.isLt = s.regs.mta[j.toNat]'j.isLt) ∧
      (s.regs.rctl.getLsbD 4 = true → ∀ f : Frame, FilterAccepts f t.regs ↔ FilterAccepts f s.regs) ∧
      t = { s with
        regs := { s.regs with mta := t.regs.mta }
        history := s.history ++ [.transaction (0x05200 + i.setWidth 17 * 4) true w] }

/-- R202: a write of EERD, at its encoding, sets ADDR to bits 15:8 and, with bit 0 set, begins a read; F09 while one is in
progress. -/
def Obligations.EerdWriteStartsRead : Prop :=
  ∀ (s : State) (w : Word),
    decode 0x80000014 w = .ok (.wrEerd w) ∧
    (s.eec.busy = false → w.getLsbD 0 = true → exec (.wrEerd w) s = .next { s with
      eec := { busy := true, done := false, addr := w.extractLsb' 8 8, data := s.eec.data }
      history := s.history ++ [.transaction 0x00014 true w] }) ∧
    (s.eec.busy = false → w.getLsbD 0 = false → exec (.wrEerd w) s = .next { s with
      eec := { s.eec with addr := w.extractLsb' 8 8 }
      history := s.history ++ [.transaction 0x00014 true w] }) ∧
    (s.eec.busy = true → exec (.wrEerd w) s = .fault (.eepromBusy 0x80000014 w))

/-! ### Frames of the transactions (R77, R140) -/

/-- R20, R55, R140: no register transaction touches host memory, the engines, the link, HOST's program, the schedule, the
parameters or the fault record; only a write of EERD touches EEC; every transaction adds one event to the history. -/
def Obligations.TransactionsLeaveTheAgentsAlone : Prop :=
  ∀ (i : Instr) (s t : State), exec i s = .next t →
    t.rxPhase = s.rxPhase ∧ t.txAcc = s.txAcc ∧ t.linkUp = s.linkUp ∧ t.mem = s.mem ∧
    (∀ a : Nat, memRead t.mem a = memRead s.mem a) ∧
    t.fault = s.fault ∧ t.host = s.host ∧ t.readBytes = s.readBytes ∧ t.turns = s.turns ∧ t.platform = s.platform ∧
    ((∀ w, i ≠ .wrEerd w) → t.eec = s.eec) ∧
    ∃ off dir v, t.history = s.history ++ [.transaction off dir v]

/-- R77: a register read changes no register, save ICR where ICR_READ_CLEARS is true. -/
def Obligations.ReadsChangeNoRegisterButIcr : Prop :=
  ∀ (a w : Word) (i : Instr) (s t : State),
    decode a w = .ok i → isWriteAccess a = false → exec i s = .next t →
    t.eec = s.eec ∧ t.regs = { s.regs with icr := t.regs.icr } ∧
    (i ≠ .rdIcr ∨ s.platform.icrReadClears = false → t.regs = s.regs)

/-! ### Interrupts (R300 to R304) -/

/-- R303, R304: INT is true exactly if some cause is pending and unmasked; so after an acknowledgment of the bits W it is true
only for another unmasked cause that was pending. -/
def Obligations.InterruptOutput : Prop :=
  (∀ s : State, s.int = true ↔ ∃ b < 32, s.regs.icr.getLsbD b = true ∧ s.regs.ims.getLsbD b = true) ∧
  ∀ (s : State) (w : Word), ∃ t, exec (.wrIcr w) s = .next t ∧
    (t.int = true ↔
      ∃ b < 32, s.regs.icr.getLsbD b = true ∧ w.getLsbD b = false ∧ s.regs.ims.getLsbD b = true)

/-- R301: a cause, masked or not, stays set through every step that is not HOST's. -/
def Obligations.DeviceStepsKeepCauses : Prop :=
  ∀ s t : State, step s = .next t → nextTurn s ≠ .host →
    ∀ b, s.regs.icr.getLsbD b = true → t.regs.icr.getLsbD b = true

/-- R300: no access of HOST sets a cause. -/
def Obligations.HostStepsSetNoCause : Prop :=
  ∀ s t : State, step s = .next t → nextTurn s = .host →
    ∀ b, t.regs.icr.getLsbD b = true → s.regs.icr.getLsbD b = true

/-! ### Whole-machine rules (R39, R141, R357) -/

/-- R39, R357: no step of a device agent writes CTRL, RCTL, TCTL, IMS, the multicast table, a ring's base, length or tail, or
what HOST holds. -/
def Obligations.DeviceStepsLeaveHostRegisters : Prop :=
  ∀ s t : State, step s = .next t → nextTurn s ≠ .host →
    t.regs.ctrl = s.regs.ctrl ∧ t.regs.rctl = s.regs.rctl ∧ t.regs.tctl = s.regs.tctl ∧ t.regs.ims = s.regs.ims ∧
    t.regs.mta = s.regs.mta ∧
    t.regs.rx = { s.regs.rx with head := t.regs.rx.head } ∧ t.regs.tx = { s.regs.tx with head := t.regs.tx.head } ∧
    t.host = s.host ∧ t.readData = s.readData ∧ t.readBytes = s.readBytes

/-- R24, R141, R142: no step changes a bit of CTRL other than SLU. -/
def Obligations.CtrlOtherBitsNeverChange : Prop :=
  ∀ s t : State, step s = .next t → t.regs.ctrl &&& 0xFFFFFFBF = s.regs.ctrl &&& 0xFFFFFFBF

/-- R10, R55, R54: no step changes a parameter, goes on from a recorded fault, leaves one recorded in a next state, or takes an event
out of the history. -/
def Obligations.ParametersFixedHistoryGrows : Prop :=
  ∀ s t : State, step s = .next t →
    t.platform = s.platform ∧ s.fault = none ∧ t.fault = none ∧ ∃ es, t.history = s.history ++ es

/-! ### Invariants every step keeps -/

/-- Log 10: memory keeps its canonical form. -/
def Obligations.StepKeepsMemoryCanonical : Prop :=
  ∀ s t : State, MemCanonical s → step s = .next t → MemCanonical t

/-- R32, R33, R35, R36, R37: the hardwired and must-be-zero bits read 0 and RCTL holds no reserved encoding. -/
def Obligations.StepKeepsRegistersLegal : Prop :=
  ∀ s t : State, RegistersLegal s → step s = .next t → RegistersLegal t

/-- R155, R178, R234: while a ring is enabled it has descriptors and its head lies below N. -/
def Obligations.StepKeepsRingsReady : Prop :=
  ∀ s t : State, RingsReady s → step s = .next t → RingsReady t

/-- R229, R238: the descriptors a frame in progress still needs stay owned until they are written back, whatever HOST does. -/
def Obligations.StepKeepsReservation : Prop :=
  ∀ s t : State, RegistersLegal s → RingsReady s → ReservationHeld s → step s = .next t → ReservationHeld t

/-- R26, R202, R203: DONE is not set while a read is in progress, and DATA is there once it is set. -/
def Obligations.StepKeepsEecConsistent : Prop :=
  ∀ s t : State, EecConsistent s → step s = .next t → EecConsistent t

/-- The invariants hold after reset, whatever R340 leaves unspecified and whatever the platform. -/
def Obligations.ResetMeetsInvariants : Prop :=
  ∀ (v : ResetValues) (p : Platform),
    MemCanonical (State.resetWith v p) ∧ RegistersLegal (State.resetWith v p) ∧ RingsReady (State.resetWith v p) ∧
    ReservationHeld (State.resetWith v p) ∧ EecConsistent (State.resetWith v p)

/-- R340: the values the table gives, and what the rule derives from them: both engines stopped, no descriptor owned, every
source masked, INT false; for every content the table leaves unspecified. -/
def Obligations.ResetStateOfTheTable : Prop :=
  ∀ (v : ResetValues) (p : Platform),
    let s := State.resetWith v p
    s.regs.ctrl.getLsbD 6 = false ∧ s.regs.ims = 0 ∧ s.regs.rctl = 0 ∧ s.regs.tctl &&& 0xFFC0000F = 0 ∧
    s.regs.rx.bal.extractLsb' 0 4 = 0 ∧ s.regs.tx.bal.extractLsb' 0 4 = 0 ∧
    s.regs.rx.len &&& 0xFFF0007F = 0 ∧ s.regs.tx.len &&& 0xFFF0007F = 0 ∧
    s.regs.rx.head = 0 ∧ s.regs.rx.tail = 0 ∧ s.regs.tx.head = 0 ∧ s.regs.tx.tail = 0 ∧
    s.eec = { busy := false, done := false, addr := 0, data := none } ∧ s.rxPhase = .idle ∧ s.txAcc = [] ∧
    s.linkUp = false ∧ s.fault = none ∧ s.history = [] ∧
    ringOwned s.regs.rx = 0 ∧ ringOwned s.regs.tx = 0 ∧ s.int = false

/-- R342: while HOST has no program and nothing is enabled, a step changes nothing but cause bits outside the named six (and the
model's own draw counter and schedule), and nothing becomes enabled. -/
def Obligations.QuietMachineStaysQuiet : Prop :=
  ∀ s : State, Quiet s →
    ∃ t c, step s = .next t ∧ Quiet t ∧ c &&& 0xD7 = 0 ∧
      t = { s with regs := { s.regs with icr := s.regs.icr ||| c }, draws := t.draws, turns := t.turns }

/-! ### EEC and LINK (R203 to R205, R307, R308) -/

/-- R203: the completion step, enabled while a read is in progress and an EEPROM is present. -/
def Obligations.EecCompletionStep : Prop :=
  ∀ s : State,
    s.eec.busy = true → s.platform.eepromPresent = true →
      takeTurn .eec s = .next { s with
        eec := { busy := false, done := true, addr := s.eec.addr
                 data := some (s.platform.eeprom[s.eec.addr.toNat]'s.eec.addr.isLt) } }

/-- R204, R361: in a weakly fair run (log 18) that never faults, a read in progress with an EEPROM present completes, with the
addressed word. -/
def Obligations.EepromReadEventuallyCompletes : Prop :=
  ∀ (run : Nat → State) (n : Nat), IsRun run → WeaklyFair run →
    (run n).eec.busy = true → (run n).platform.eepromPresent = true →
    ∃ m, n < m ∧ (run m).eec.done = true ∧
      (run m).eec.data = some ((run n).platform.eeprom[(run n).eec.addr.toNat]'(run n).eec.addr.isLt)

/-- R205, R203: without an EEPROM, DONE stays 0 and a read in progress stays in progress, whatever step is taken; EEC's turn with no
read in progress or no EEPROM passes (log 14, the model's choice). -/
def Obligations.AbsentEepromNeverCompletes : Prop :=
  (∀ s t : State, s.platform.eepromPresent = false → s.eec.done = false → step s = .next t →
    t.eec.done = false ∧ (s.eec.busy = true → t.eec.busy = true)) ∧
  ∀ s : State, s.eec.busy = false ∨ s.platform.eepromPresent = false → takeTurn .eec s = .next s

/-- R307, R308: link up needs SLU (bit 6 of CTRL) and a partner, link down an up link, each sets LSC; other causes set no named
bit; a turn whose guard fails passes (log 14, the model's choice). -/
def Obligations.LinkSteps : Prop :=
  ∀ (s : State) (v : Word),
    (s.regs.ctrl.getLsbD 6 = true → s.platform.linkPartner = true → s.linkUp = false →
      takeTurn .linkUp s = .next { s with linkUp := true, regs := { s.regs with icr := s.regs.icr ||| 0x4 } }) ∧
    (s.regs.ctrl.getLsbD 6 = false ∨ s.platform.linkPartner = false ∨ s.linkUp = true → takeTurn .linkUp s = .next s) ∧
    (s.linkUp = true →
      takeTurn .linkDown s = .next { s with linkUp := false, regs := { s.regs with icr := s.regs.icr ||| 0x4 } }) ∧
    (s.linkUp = false → takeTurn .linkDown s = .next s) ∧
    takeTurn (.otherCauses v) s = .next { s with regs := { s.regs with icr := s.regs.icr ||| (v &&& 0xFFFFFF28) } }

/-! ### Ring arithmetic (R33, R34, R51, R120) -/

/-- R120, R51, R33, R34: the descriptor count and addresses of a ring, the number of owned descriptors for a head h and a tail t,
the head's advance, the seven buffer sizes and the three thresholds, each over every register content. -/
def Obligations.RingArithmetic : Prop :=
  (∀ (x : RingRegs) (i : Nat),
    ringCount x = (x.len &&& 0x000FFF80).toNat / 16 ∧
    (descAddr x i).toNat = (x.bah.toNat * 2 ^ 32 + (x.bal &&& 0xFFFFFFF0).toNat + 16 * i) % 2 ^ 64 ∧
    (0 < ringCount x → (nextHead x).toNat = (x.head.toNat + 1) % ringCount x)) ∧
  (∀ n h t : Nat, ownedCount n h t =
    if n = 0 ∨ n ≤ h then 0 else if n ≤ t then n else if h ≤ t then t - h else t + n - h) ∧
  (∀ w : Word,
    (w.getLsbD 25 = false →
      bufSize w = match (w.extractLsb' 16 2).toNat with | 0 => 2048 | 1 => 1024 | 2 => 512 | _ => 256) ∧
    (w.getLsbD 25 = true → (w.extractLsb' 16 2).toNat = 1 → bufSize w = 16384) ∧
    (w.getLsbD 25 = true → (w.extractLsb' 16 2).toNat = 2 → bufSize w = 8192) ∧
    (w.getLsbD 25 = true → (w.extractLsb' 16 2).toNat = 3 → bufSize w = 4096)) ∧
  ∀ (w : Word) (n : Nat),
    ((w.extractLsb' 8 2).toNat = 0 → threshold w n = n / 2) ∧
    ((w.extractLsb' 8 2).toNat = 1 → threshold w n = n / 4) ∧
    ((w.extractLsb' 8 2).toNat = 2 → threshold w n = n / 8)

/-! ### Receive (R221 to R238) -/

/-- R221 to R225: why an arriving frame is dropped, in the order of the rules; nothing but the history changes. While a frame is being
stored or the link is down the frame is not sent (R221): the turn passes (log 14, the model's choice). -/
def Obligations.FrameDropOrder : Prop :=
  ∀ (f : Frame) (s : State),
    let len := f.bytes.length
    let en := s.regs.rctl.getLsbD 1 = true
    let acc := FilterAccepts f s.regs
    let dropped (r : DropReason) : Result := .next { s with history := s.history ++ [.frameIn f, .drop f r] }
    (s.linkUp = false ∨ s.rxPhase ≠ .idle → takeTurn (.frame f) s = .next s) ∧
    (s.linkUp = true → s.rxPhase = .idle →
      (¬en → takeTurn (.frame f) s = dropped .disabled) ∧
      (en → ¬acc → takeTurn (.frame f) s = dropped .filtered) ∧
      (en → acc → len < 64 → takeTurn (.frame f) s = dropped .runt) ∧
      (en → acc → 16384 < len → takeTurn (.frame f) s = dropped .tooLong) ∧
      (en → acc → 1522 < len → len ≤ 16384 → s.regs.rctl.getLsbD 5 = false → takeTurn (.frame f) s = dropped .long) ∧
      (en → acc → 64 ≤ len → len ≤ 16384 → (1522 < len → s.regs.rctl.getLsbD 5 = true) → f.err ≠ 0 →
        s.regs.rctl.getLsbD 2 = false → takeTurn (.frame f) s = dropped .error))

/-- R222 to R231, R238: a frame that passes every check is stored if its k descriptors are owned, with the buffer size, the error byte
and the threshold (log 23) of that moment, and dropped with RXO if not. -/
def Obligations.FrameAcceptedOrOverrun : Prop :=
  ∀ (f : Frame) (s : State), s.linkUp = true → s.rxPhase = .idle → s.regs.rctl.getLsbD 1 = true →
    FilterAccepts f s.regs → 64 ≤ f.bytes.length → f.bytes.length ≤ 16384 →
    (1522 < f.bytes.length → s.regs.rctl.getLsbD 5 = true) → (f.err ≠ 0 → s.regs.rctl.getLsbD 2 = true) →
    let data := if s.regs.rctl.getLsbD 26 then f.bytes.take (f.bytes.length - 4) else f.bytes
    let b := bufSize s.regs.rctl
    let k := (data.length + b - 1) / b
    let d := ownedCount (ringCount s.regs.rx) s.regs.rx.head.toNat s.regs.rx.tail.toNat
    (k ≤ d → takeTurn (.frame f) s = .next { s with
      rxPhase := .storing { data := data, err := f.err &&& 0x97, k := k, j := 0, bsize := b, free0 := d
                            thr := threshold s.regs.rctl (ringCount s.regs.rx) }
      history := s.history ++ [.frameIn f] }) ∧
    (d < k → takeTurn (.frame f) s = .next { s with
      regs := { s.regs with icr := s.regs.icr ||| 0x40 }
      history := s.history ++ [.frameIn f, .drop f .noDescriptors] })

/-- R240: under the driver's configuration every frame of wire length 64 to 16384 is accepted, whatever its address, its error
byte and ExactFilter. -/
def Obligations.DriverConfigurationAcceptsEveryFrame : Prop :=
  ∀ (f : Frame) (s : State), s.linkUp = true → s.rxPhase = .idle → s.regs.rctl = 0x0400803E →
    s.regs.rx.len = 256 → s.regs.rx.tail = 16 → s.regs.rx.head.toNat < 16 →
    64 ≤ f.bytes.length → f.bytes.length ≤ 16384 →
    ∃ t job, takeTurn (.frame f) s = .next t ∧ t.rxPhase = .storing job ∧ job.bsize = 2048 ∧ job.k ≤ 8 ∧
      job.data = f.bytes.take (f.bytes.length - 4)

/-- R232 to R236, R146, R238: a piece with its three DMA accesses admitted: data, then write-back, then the head; the last piece ends
the frame with RXT0 and, on a downward crossing of the threshold, RXDMT0. The threshold is the one of the RCTL the frame was accepted
under (log 23: R236 alone would take RCTL as it stands, R146 and R238 say it is latched), so that a write of RCTL during the frame changes
nothing here. With no frame in progress RXE's turn passes (log 14, the model's choice). -/
def Obligations.PieceStep : Prop :=
  (∀ s : State, s.rxPhase = .idle → takeTurn .rxe s = .next s) ∧
  ∀ (s : State) (job : RxJob), s.rxPhase = .storing job → job.j < job.k →
    let d := descAddr s.regs.rx s.regs.rx.head.toNat
    let a := BitVec.ofNat 64 (le (readBytes s.mem d 8))
    let piece := (job.data.drop (job.j * job.bsize)).take job.bsize
    let last := job.j + 1 = job.k
    let rx' := { s.regs.rx with head := BitVec.ofNat 16 ((s.regs.rx.head.toNat + 1) % ringCount s.regs.rx) }
    dmaOK s.platform d 8 = true → dmaOK s.platform a piece.length = true → dmaOK s.platform (d + 8) 8 = true →
    ∃ (t : State) (csum wb : List Byte),
      takeTurn .rxe s = .next t ∧
      wb = toLe 2 piece.length ++ csum ++ [if last then 0x03 else 0x01, if last then job.err else 0, 0, 0] ∧
      csum.length = 2 ∧
      t = { s with
        mem := writeBytes (writeBytes s.mem a piece) (d + 8) wb
        draws := s.draws + 1
        rxPhase := if last then .idle else .storing { job with j := job.j + 1 }
        regs := { s.regs with
          rx := rx'
          icr := if last then
              (if job.thr < job.free0 ∧ ringOwned rx' ≤ job.thr then s.regs.icr ||| 0x90 else s.regs.icr ||| 0x80)
            else s.regs.icr }
        history := s.history ++ [.dmaRead .rxe d (readBytes s.mem d 8), .dmaWrite .rxe a piece, .dmaWrite .rxe (d + 8) wb] }

/-- R232: every byte outside the piece's buffer range and the descriptor's bytes 8 to 15 reads as before a piece step. -/
def Obligations.PieceStepMemoryFrame : Prop :=
  ∀ (s t : State) (job : RxJob), s.rxPhase = .storing job → job.j < job.k → takeTurn .rxe s = .next t →
    ∀ x : Addr,
      (x - BitVec.ofNat 64 (le (readBytes s.mem (descAddr s.regs.rx s.regs.rx.head.toNat) 8))).toNat ≥
        ((job.data.drop (job.j * job.bsize)).take job.bsize).length →
      (x - (descAddr s.regs.rx s.regs.rx.head.toNat + 8)).toNat ≥ 8 →
      memRead t.mem x.toNat = memRead s.mem x.toNat

/-- R84, R311, R312: an RXE access DmaOK does not admit faults F12, the first of the three in their order. -/
def Obligations.PieceStepNotAdmitted : Prop :=
  ∀ (s : State) (job : RxJob), s.rxPhase = .storing job → job.j < job.k →
    let d := descAddr s.regs.rx s.regs.rx.head.toNat
    let a := BitVec.ofNat 64 (le (readBytes s.mem d 8))
    let n := ((job.data.drop (job.j * job.bsize)).take job.bsize).length
    (dmaOK s.platform d 8 = false → takeTurn .rxe s = .fault (.dmaNotAdmitted .rxe d 8)) ∧
    (dmaOK s.platform d 8 = true → dmaOK s.platform a n = false →
      takeTurn .rxe s = .fault (.dmaNotAdmitted .rxe a n)) ∧
    (dmaOK s.platform d 8 = true → dmaOK s.platform a n = true → dmaOK s.platform (d + 8) 8 = false →
      takeTurn .rxe s = .fault (.dmaNotAdmitted .rxe (d + 8) 8))

/-! ### Transmit (R260 to R273) -/

/-- R265, R273: a cleared descriptor is consumed with no effect but the head advance, and TXQE where the head reaches the tail. Where
R260's guard fails (EN = 0, N = 0, the head at or past N, or no descriptor owned) TXE's turn passes (log 14, the model's choice). -/
def Obligations.ClearedDescriptorOnlyAdvancesHead : Prop :=
  (∀ s : State, s.regs.tctl.getLsbD 1 = false ∨ ringCount s.regs.tx = 0 ∨
      ringCount s.regs.tx ≤ s.regs.tx.head.toNat ∨
      ownedCount (ringCount s.regs.tx) s.regs.tx.head.toNat s.regs.tx.tail.toNat = 0 →
    takeTurn .txe s = .next s) ∧
  ∀ s : State, s.regs.tctl.getLsbD 1 = true → s.regs.tx.head.toNat < ringCount s.regs.tx → 0 < ringOwned s.regs.tx →
    let d := descAddr s.regs.tx s.regs.tx.head.toNat
    let h' : Half := BitVec.ofNat 16 ((s.regs.tx.head.toNat + 1) % ringCount s.regs.tx)
    dmaOK s.platform d 16 = true → readBytes s.mem d 16 = List.replicate 16 0 →
    takeTurn .txe s = .next { s with
      regs := { s.regs with
        tx := { s.regs.tx with head := h' }
        icr := if s.regs.tx.tail.toNat < ringCount s.regs.tx ∧ h' = s.regs.tx.tail then s.regs.icr ||| 0x2 else s.regs.icr }
      history := s.history ++ [.dmaRead .txe d (List.replicate 16 0)] }

/-- R261 to R270: the step for every admitted descriptor, that is every length and every CMD with no bit but EOP (bit 0), IFCS (bit 1) and
RS (bit 3), its DMA accesses admitted. The data joins the assembled bytes; with EOP these are emitted, if there are any, padded to 60
bytes where PSP is set and with their FCS where IFCS is set, and the assembly starts anew; without EOP they stay; with RS the STA byte is
written with DD and TXDW set; then the head advances, with TXQE where it reaches the tail. -/
def Obligations.AdmittedDescriptorStep : Prop :=
  ∀ (s : State) (desc : List Byte), s.regs.tctl.getLsbD 1 = true → s.regs.tx.head.toNat < ringCount s.regs.tx →
    0 < ringOwned s.regs.tx →
    let d := descAddr s.regs.tx s.regs.tx.head.toNat
    let a := BitVec.ofNat 64 (le (desc.take 8))
    let len := le ((desc.drop 8).take 2)
    let cmd := desc.getD 11 0
    let eop := cmd.getLsbD 0 = true
    let rs := cmd.getLsbD 3 = true
    let acc := s.txAcc ++ readBytes s.mem a len
    let body := if s.regs.tctl.getLsbD 3 then acc ++ List.replicate (60 - acc.length) 0 else acc
    let frame := if cmd.getLsbD 1 then body ++ (fcs body).toList else body
    let sta := [(desc.getD 12 0 &&& 0xF0) ||| 0x01]
    let h' : Half := BitVec.ofNat 16 ((s.regs.tx.head.toNat + 1) % ringCount s.regs.tx)
    desc = readBytes s.mem d 16 → cmd &&& 0xF4 = 0 →
    dmaOK s.platform d 16 = true → (0 < len → dmaOK s.platform a len = true) →
    (rs → dmaOK s.platform (d + 12) 1 = true) →
    takeTurn .txe s = .next { s with
      txAcc := if eop then [] else acc
      mem := if rs then writeBytes s.mem (d + 12) sta else s.mem
      regs := { s.regs with
        tx := { s.regs.tx with head := h' }
        icr := s.regs.icr ||| (if rs then 0x1 else 0) |||
          (if s.regs.tx.tail.toNat < ringCount s.regs.tx ∧ h' = s.regs.tx.tail then 0x2 else 0) }
      history := s.history ++ [.dmaRead .txe d desc] ++
        (if 0 < len then [.dmaRead .txe a (readBytes s.mem a len)] else []) ++
        (if eop ∧ acc ≠ [] then [.frameOut frame] else []) ++
        (if rs then [.dmaWrite .txe (d + 12) sta] else []) }

/-- R262, R84, R312: F12 on the descriptor read, then F11 for a CMD bit outside EOP, IFCS and RS, then F12 on the data read; last, F12 on
the status write-back of RS (bit 3 of CMD), which R312 does not list (log 19, the model's reading of R84). -/
def Obligations.TransmitFaultOrder : Prop :=
  ∀ s : State, s.regs.tctl.getLsbD 1 = true → s.regs.tx.head.toNat < ringCount s.regs.tx → 0 < ringOwned s.regs.tx →
    let d := descAddr s.regs.tx s.regs.tx.head.toNat
    let desc := readBytes s.mem d 16
    let cmd := desc.getD 11 0
    let a := BitVec.ofNat 64 (le (desc.take 8))
    let len := le ((desc.drop 8).take 2)
    (dmaOK s.platform d 16 = false → takeTurn .txe s = .fault (.dmaNotAdmitted .txe d 16)) ∧
    (dmaOK s.platform d 16 = true → cmd &&& 0xF4 ≠ 0 →
      takeTurn .txe s = .fault (.txUnmodelledDesc s.regs.tx.head.toNat cmd)) ∧
    (dmaOK s.platform d 16 = true → cmd &&& 0xF4 = 0 → 0 < len → dmaOK s.platform a len = false →
      takeTurn .txe s = .fault (.dmaNotAdmitted .txe a len)) ∧
    (dmaOK s.platform d 16 = true → cmd &&& 0xF4 = 0 → (0 < len → dmaOK s.platform a len = true) →
      cmd.getLsbD 3 = true → dmaOK s.platform (d + 12) 1 = false →
      takeTurn .txe s = .fault (.dmaNotAdmitted .txe (d + 12) 1))

/-- R113, R115, R268: the transmit engine writes no byte of host memory but the STA byte of the descriptor at the head, and that
only with RS (bit 3 of CMD). -/
def Obligations.TransmitMemoryFrame : Prop :=
  ∀ s t : State, takeTurn .txe s = .next t →
    ∀ x : Addr,
      x ≠ descAddr s.regs.tx s.regs.tx.head.toNat + 12 ∨
        (readBytes s.mem (descAddr s.regs.tx s.regs.tx.head.toNat) 16).getD 11 0 &&& 0x08 = 0 →
      memRead t.mem x.toNat = memRead s.mem x.toNat

/-! ### Host memory and HOST's program (R88, R89, R207, R343) -/

/-- R52, R89: the bytes the device owns are those of the rule, over descriptors and buffers of both rings, and no others; a store of HOST
that touches one of them faults F10. -/
def Obligations.OwnedBytesRejectHostStores : Prop :=
  (∀ (s : State) (x : Addr),
    (hostOwnedByDevice s x = true ↔ OwnedByte s x) ∧ (inOwnedRxBuffer s x = true ↔ OwnedRxBufferByte s x)) ∧
  ∀ (s : State) (a : Addr) (v : List Byte) (k : Nat), k < v.length → OwnedByte s (a + BitVec.ofNat 64 k) →
    hostWrite a v s = .fault (.hostWriteOwned a v.length)

/-- R89, R52: a store of HOST that touches no owned byte writes its bytes, which read back, and leaves every other byte. -/
def Obligations.HostStoreWritesItsBytes : Prop :=
  ∀ (s : State) (a : Addr) (v : List Byte), v.length ≤ 2 ^ 64 →
    (∀ k < v.length, ¬OwnedByte s (a + BitVec.ofNat 64 k)) →
    ∃ t, hostWrite a v s = .next t ∧ readBytes t.mem a v.length = v ∧
      (∀ x : Addr, (x - a).toNat ≥ v.length → memRead t.mem x.toNat = memRead s.mem x.toNat) ∧
      t = { s with mem := t.mem }

/-- R88, R52: a load of HOST returns memory as it is in every byte outside the owned receive buffers and a draw in every byte inside one,
in a byte of a descriptor too (log 24, the model's choice); nothing else changes but the draw counter. -/
def Obligations.HostLoadReturnsMemory : Prop :=
  ∀ (s : State) (a : Addr) (n : Nat),
    hostRead a n s = { s with readBytes := (hostRead a n s).readBytes, draws := s.draws + n } ∧
    (hostRead a n s).readBytes.length = n ∧
    ∀ k < n,
      (¬OwnedRxBufferByte s (a + BitVec.ofNat 64 k) →
        (hostRead a n s).readBytes[k]? = some (memRead s.mem (a + BitVec.ofNat 64 k).toNat)) ∧
      (OwnedRxBufferByte s (a + BitVec.ofNat 64 k) → (hostRead a n s).readBytes[k]? = some (drawByte (s.draws + k)))

/-- R343: region resolution takes a region of 131072 bytes with its base above 0xFFFF, the first among the first six. -/
def Obligations.RegionResolutionTakesFirstMatch : Prop :=
  ∀ (regions : List (Addr × Nat)) (b : Addr),
    selectRegion regions = some b ↔
      ∃ i < 6, regions[i]? = some (b, 131072) ∧ 0xFFFF < b.toNat ∧
        ∀ j < i, ∀ r, regions[j]? = some r → ¬(r.2 = 131072 ∧ 0xFFFF < r.1.toNat)
end

