-- ==== Sys2Proof/Laws/Decode.lean ====
section
/-! SUPPORT. What the decoder answers for an access word that passes its four tests. -/

namespace Sys2Proof

/-- R101: an access word that passes the four tests decodes to the row of its register and its direction. -/
theorem decode_of_lookup {a : Word} {r : Reg} (h1 : inWindow a = true) (h2 : isWordAccess a = true)
    (h3 : isAligned a = true) (h4 : lookup (a.extractLsb' 0 17) = some r) (w : Word) :
    decode a w = .ok (if isWriteAccess a then writeOf r w else readOf r) := by
  simp [decode, h1, h2, h3, h4]

/-- R105: the offset of MTA[i] reaches entry i, for every i. -/
theorem lookup_mtaOff : ∀ i : BitVec 7, lookup (mtaOff i) = some (.mta i) := by decide

end Sys2Proof
end

