-- ==== Sys2Proof/Laws/State.lean ====
section
/-! SUPPORT. One lemma per field per update of the state, so that no later proof unfolds a record update. -/

namespace Sys2Proof.Machine


/-! ### finishRead -/
section
variable (off : Off) (v : Word) (s : State)
@[simp] theorem finishRead_regs : (finishRead off v s).regs = s.regs := rfl
@[simp] theorem finishRead_eec : (finishRead off v s).eec = s.eec := rfl
@[simp] theorem finishRead_rxPhase : (finishRead off v s).rxPhase = s.rxPhase := rfl
@[simp] theorem finishRead_txAcc : (finishRead off v s).txAcc = s.txAcc := rfl
@[simp] theorem finishRead_linkUp : (finishRead off v s).linkUp = s.linkUp := rfl
@[simp] theorem finishRead_mem : (finishRead off v s).mem = s.mem := rfl
@[simp] theorem finishRead_fault : (finishRead off v s).fault = s.fault := rfl
@[simp] theorem finishRead_history : (finishRead off v s).history = s.history ++ [.transaction off false v] := rfl
@[simp] theorem finishRead_host : (finishRead off v s).host = s.host := rfl
@[simp] theorem finishRead_readData : (finishRead off v s).readData = v := rfl
@[simp] theorem finishRead_readBytes : (finishRead off v s).readBytes = s.readBytes := rfl
@[simp] theorem finishRead_draws : (finishRead off v s).draws = s.draws := rfl
@[simp] theorem finishRead_turns : (finishRead off v s).turns = s.turns := rfl
@[simp] theorem finishRead_platform : (finishRead off v s).platform = s.platform := rfl
end

/-! ### finishWrite -/
section
variable (off : Off) (w : Word) (s : State)
@[simp] theorem finishWrite_regs : (finishWrite off w s).regs = s.regs := rfl
@[simp] theorem finishWrite_eec : (finishWrite off w s).eec = s.eec := rfl
@[simp] theorem finishWrite_rxPhase : (finishWrite off w s).rxPhase = s.rxPhase := rfl
@[simp] theorem finishWrite_txAcc : (finishWrite off w s).txAcc = s.txAcc := rfl
@[simp] theorem finishWrite_linkUp : (finishWrite off w s).linkUp = s.linkUp := rfl
@[simp] theorem finishWrite_mem : (finishWrite off w s).mem = s.mem := rfl
@[simp] theorem finishWrite_fault : (finishWrite off w s).fault = s.fault := rfl
@[simp] theorem finishWrite_history : (finishWrite off w s).history = s.history ++ [.transaction off true w] := rfl
@[simp] theorem finishWrite_host : (finishWrite off w s).host = s.host := rfl
@[simp] theorem finishWrite_readData : (finishWrite off w s).readData = s.readData := rfl
@[simp] theorem finishWrite_readBytes : (finishWrite off w s).readBytes = s.readBytes := rfl
@[simp] theorem finishWrite_draws : (finishWrite off w s).draws = s.draws := rfl
@[simp] theorem finishWrite_turns : (finishWrite off w s).turns = s.turns := rfl
@[simp] theorem finishWrite_platform : (finishWrite off w s).platform = s.platform := rfl
end

/-! ### record -/
section
variable (e : Event) (s : State)
@[simp] theorem record_regs : (record e s).regs = s.regs := rfl
@[simp] theorem record_eec : (record e s).eec = s.eec := rfl
@[simp] theorem record_rxPhase : (record e s).rxPhase = s.rxPhase := rfl
@[simp] theorem record_txAcc : (record e s).txAcc = s.txAcc := rfl
@[simp] theorem record_linkUp : (record e s).linkUp = s.linkUp := rfl
@[simp] theorem record_mem : (record e s).mem = s.mem := rfl
@[simp] theorem record_fault : (record e s).fault = s.fault := rfl
@[simp] theorem record_history : (record e s).history = s.history ++ [e] := rfl
@[simp] theorem record_host : (record e s).host = s.host := rfl
@[simp] theorem record_readData : (record e s).readData = s.readData := rfl
@[simp] theorem record_readBytes : (record e s).readBytes = s.readBytes := rfl
@[simp] theorem record_draws : (record e s).draws = s.draws := rfl
@[simp] theorem record_turns : (record e s).turns = s.turns := rfl
@[simp] theorem record_platform : (record e s).platform = s.platform := rfl
end

/-! ### setCause -/
section
variable (c : Word) (s : State)
@[simp] theorem setCause_regs : (setCause c s).regs = { s.regs with icr := s.regs.icr ||| c } := rfl
@[simp] theorem setCause_eec : (setCause c s).eec = s.eec := rfl
@[simp] theorem setCause_rxPhase : (setCause c s).rxPhase = s.rxPhase := rfl
@[simp] theorem setCause_txAcc : (setCause c s).txAcc = s.txAcc := rfl
@[simp] theorem setCause_linkUp : (setCause c s).linkUp = s.linkUp := rfl
@[simp] theorem setCause_mem : (setCause c s).mem = s.mem := rfl
@[simp] theorem setCause_fault : (setCause c s).fault = s.fault := rfl
@[simp] theorem setCause_history : (setCause c s).history = s.history := rfl
@[simp] theorem setCause_host : (setCause c s).host = s.host := rfl
@[simp] theorem setCause_readData : (setCause c s).readData = s.readData := rfl
@[simp] theorem setCause_readBytes : (setCause c s).readBytes = s.readBytes := rfl
@[simp] theorem setCause_draws : (setCause c s).draws = s.draws := rfl
@[simp] theorem setCause_turns : (setCause c s).turns = s.turns := rfl
@[simp] theorem setCause_platform : (setCause c s).platform = s.platform := rfl
end

/-! ### mtaSet -/
section
variable (i : BitVec 7) (w : Word) (s : State)
@[simp] theorem mtaSet_regs : (mtaSet i w s).regs = { s.regs with mta := s.regs.mta.set i.toNat w i.isLt } := rfl
@[simp] theorem mtaSet_eec : (mtaSet i w s).eec = s.eec := rfl
@[simp] theorem mtaSet_rxPhase : (mtaSet i w s).rxPhase = s.rxPhase := rfl
@[simp] theorem mtaSet_txAcc : (mtaSet i w s).txAcc = s.txAcc := rfl
@[simp] theorem mtaSet_linkUp : (mtaSet i w s).linkUp = s.linkUp := rfl
@[simp] theorem mtaSet_mem : (mtaSet i w s).mem = s.mem := rfl
@[simp] theorem mtaSet_fault : (mtaSet i w s).fault = s.fault := rfl
@[simp] theorem mtaSet_history : (mtaSet i w s).history = s.history := rfl
@[simp] theorem mtaSet_host : (mtaSet i w s).host = s.host := rfl
@[simp] theorem mtaSet_readData : (mtaSet i w s).readData = s.readData := rfl
@[simp] theorem mtaSet_readBytes : (mtaSet i w s).readBytes = s.readBytes := rfl
@[simp] theorem mtaSet_draws : (mtaSet i w s).draws = s.draws := rfl
@[simp] theorem mtaSet_turns : (mtaSet i w s).turns = s.turns := rfl
@[simp] theorem mtaSet_platform : (mtaSet i w s).platform = s.platform := rfl
end

/-! ### setRingRegs -/
section
variable (r : Ring) (x : RingRegs) (s : State)
@[simp] theorem setRingRegs_eec : (setRingRegs r x s).eec = s.eec := by cases r <;> rfl
@[simp] theorem setRingRegs_rxPhase : (setRingRegs r x s).rxPhase = s.rxPhase := by cases r <;> rfl
@[simp] theorem setRingRegs_txAcc : (setRingRegs r x s).txAcc = s.txAcc := by cases r <;> rfl
@[simp] theorem setRingRegs_linkUp : (setRingRegs r x s).linkUp = s.linkUp := by cases r <;> rfl
@[simp] theorem setRingRegs_mem : (setRingRegs r x s).mem = s.mem := by cases r <;> rfl
@[simp] theorem setRingRegs_fault : (setRingRegs r x s).fault = s.fault := by cases r <;> rfl
@[simp] theorem setRingRegs_history : (setRingRegs r x s).history = s.history := by cases r <;> rfl
@[simp] theorem setRingRegs_host : (setRingRegs r x s).host = s.host := by cases r <;> rfl
@[simp] theorem setRingRegs_readData : (setRingRegs r x s).readData = s.readData := by cases r <;> rfl
@[simp] theorem setRingRegs_readBytes : (setRingRegs r x s).readBytes = s.readBytes := by cases r <;> rfl
@[simp] theorem setRingRegs_draws : (setRingRegs r x s).draws = s.draws := by cases r <;> rfl
@[simp] theorem setRingRegs_turns : (setRingRegs r x s).turns = s.turns := by cases r <;> rfl
@[simp] theorem setRingRegs_platform : (setRingRegs r x s).platform = s.platform := by cases r <;> rfl
end

/-! ### setProg -/
section
variable (p : List HostOp) (s : State)
@[simp] theorem setProg_regs : (setProg p s).regs = s.regs := rfl
@[simp] theorem setProg_eec : (setProg p s).eec = s.eec := rfl
@[simp] theorem setProg_rxPhase : (setProg p s).rxPhase = s.rxPhase := rfl
@[simp] theorem setProg_txAcc : (setProg p s).txAcc = s.txAcc := rfl
@[simp] theorem setProg_linkUp : (setProg p s).linkUp = s.linkUp := rfl
@[simp] theorem setProg_mem : (setProg p s).mem = s.mem := rfl
@[simp] theorem setProg_fault : (setProg p s).fault = s.fault := rfl
@[simp] theorem setProg_history : (setProg p s).history = s.history := rfl
@[simp] theorem setProg_host : (setProg p s).host = { s.host with prog := p } := rfl
@[simp] theorem setProg_readData : (setProg p s).readData = s.readData := rfl
@[simp] theorem setProg_readBytes : (setProg p s).readBytes = s.readBytes := rfl
@[simp] theorem setProg_draws : (setProg p s).draws = s.draws := rfl
@[simp] theorem setProg_turns : (setProg p s).turns = s.turns := rfl
@[simp] theorem setProg_platform : (setProg p s).platform = s.platform := rfl
end

/-! ### push -/
section
variable (o : HostOp) (s : State)
@[simp] theorem push_regs : (push o s).regs = s.regs := rfl
@[simp] theorem push_eec : (push o s).eec = s.eec := rfl
@[simp] theorem push_rxPhase : (push o s).rxPhase = s.rxPhase := rfl
@[simp] theorem push_txAcc : (push o s).txAcc = s.txAcc := rfl
@[simp] theorem push_linkUp : (push o s).linkUp = s.linkUp := rfl
@[simp] theorem push_mem : (push o s).mem = s.mem := rfl
@[simp] theorem push_fault : (push o s).fault = s.fault := rfl
@[simp] theorem push_history : (push o s).history = s.history := rfl
@[simp] theorem push_host : (push o s).host = { s.host with prog := o :: s.host.prog } := rfl
@[simp] theorem push_readData : (push o s).readData = s.readData := rfl
@[simp] theorem push_readBytes : (push o s).readBytes = s.readBytes := rfl
@[simp] theorem push_draws : (push o s).draws = s.draws := rfl
@[simp] theorem push_turns : (push o s).turns = s.turns := rfl
@[simp] theorem push_platform : (push o s).platform = s.platform := rfl
end

/-! ### varSet -/
section
variable (x : HostVar) (v : BitVec 64) (s : State)
@[simp] theorem varSet_regs : (varSet x v s).regs = s.regs := rfl
@[simp] theorem varSet_eec : (varSet x v s).eec = s.eec := rfl
@[simp] theorem varSet_rxPhase : (varSet x v s).rxPhase = s.rxPhase := rfl
@[simp] theorem varSet_txAcc : (varSet x v s).txAcc = s.txAcc := rfl
@[simp] theorem varSet_linkUp : (varSet x v s).linkUp = s.linkUp := rfl
@[simp] theorem varSet_mem : (varSet x v s).mem = s.mem := rfl
@[simp] theorem varSet_fault : (varSet x v s).fault = s.fault := rfl
@[simp] theorem varSet_history : (varSet x v s).history = s.history := rfl
@[simp] theorem varSet_host : (varSet x v s).host = { s.host with vars := s.host.vars.set x.val v x.isLt } := rfl
@[simp] theorem varSet_readData : (varSet x v s).readData = s.readData := rfl
@[simp] theorem varSet_readBytes : (varSet x v s).readBytes = s.readBytes := rfl
@[simp] theorem varSet_draws : (varSet x v s).draws = s.draws := rfl
@[simp] theorem varSet_turns : (varSet x v s).turns = s.turns := rfl
@[simp] theorem varSet_platform : (varSet x v s).platform = s.platform := rfl
end

/-! ### haltHost -/
section
variable (why : HostHalt) (s : State)
@[simp] theorem haltHost_regs : (haltHost why s).regs = s.regs := rfl
@[simp] theorem haltHost_eec : (haltHost why s).eec = s.eec := rfl
@[simp] theorem haltHost_rxPhase : (haltHost why s).rxPhase = s.rxPhase := rfl
@[simp] theorem haltHost_txAcc : (haltHost why s).txAcc = s.txAcc := rfl
@[simp] theorem haltHost_linkUp : (haltHost why s).linkUp = s.linkUp := rfl
@[simp] theorem haltHost_mem : (haltHost why s).mem = s.mem := rfl
@[simp] theorem haltHost_fault : (haltHost why s).fault = s.fault := rfl
@[simp] theorem haltHost_history : (haltHost why s).history = s.history := rfl
@[simp] theorem haltHost_host : (haltHost why s).host = { s.host with prog := [], halted := some why } := rfl
@[simp] theorem haltHost_readData : (haltHost why s).readData = s.readData := rfl
@[simp] theorem haltHost_readBytes : (haltHost why s).readBytes = s.readBytes := rfl
@[simp] theorem haltHost_draws : (haltHost why s).draws = s.draws := rfl
@[simp] theorem haltHost_turns : (haltHost why s).turns = s.turns := rfl
@[simp] theorem haltHost_platform : (haltHost why s).platform = s.platform := rfl
end

/-! ### drawWord -/
section
variable (s : State)
@[simp] theorem drawWord_regs : (drawWord s).2.regs = s.regs := rfl
@[simp] theorem drawWord_eec : (drawWord s).2.eec = s.eec := rfl
@[simp] theorem drawWord_rxPhase : (drawWord s).2.rxPhase = s.rxPhase := rfl
@[simp] theorem drawWord_txAcc : (drawWord s).2.txAcc = s.txAcc := rfl
@[simp] theorem drawWord_linkUp : (drawWord s).2.linkUp = s.linkUp := rfl
@[simp] theorem drawWord_mem : (drawWord s).2.mem = s.mem := rfl
@[simp] theorem drawWord_fault : (drawWord s).2.fault = s.fault := rfl
@[simp] theorem drawWord_history : (drawWord s).2.history = s.history := rfl
@[simp] theorem drawWord_host : (drawWord s).2.host = s.host := rfl
@[simp] theorem drawWord_readData : (drawWord s).2.readData = s.readData := rfl
@[simp] theorem drawWord_readBytes : (drawWord s).2.readBytes = s.readBytes := rfl
@[simp] theorem drawWord_draws : (drawWord s).2.draws = s.draws + 1 := rfl
@[simp] theorem drawWord_turns : (drawWord s).2.turns = s.turns := rfl
@[simp] theorem drawWord_platform : (drawWord s).2.platform = s.platform := rfl
end

/-! ### drawHalf -/
section
variable (s : State)
@[simp] theorem drawHalf_regs : (drawHalf s).2.regs = s.regs := rfl
@[simp] theorem drawHalf_eec : (drawHalf s).2.eec = s.eec := rfl
@[simp] theorem drawHalf_rxPhase : (drawHalf s).2.rxPhase = s.rxPhase := rfl
@[simp] theorem drawHalf_txAcc : (drawHalf s).2.txAcc = s.txAcc := rfl
@[simp] theorem drawHalf_linkUp : (drawHalf s).2.linkUp = s.linkUp := rfl
@[simp] theorem drawHalf_mem : (drawHalf s).2.mem = s.mem := rfl
@[simp] theorem drawHalf_fault : (drawHalf s).2.fault = s.fault := rfl
@[simp] theorem drawHalf_history : (drawHalf s).2.history = s.history := rfl
@[simp] theorem drawHalf_host : (drawHalf s).2.host = s.host := rfl
@[simp] theorem drawHalf_readData : (drawHalf s).2.readData = s.readData := rfl
@[simp] theorem drawHalf_readBytes : (drawHalf s).2.readBytes = s.readBytes := rfl
@[simp] theorem drawHalf_draws : (drawHalf s).2.draws = s.draws + 1 := rfl
@[simp] theorem drawHalf_turns : (drawHalf s).2.turns = s.turns := rfl
@[simp] theorem drawHalf_platform : (drawHalf s).2.platform = s.platform := rfl
end

/-! ### popTurn -/
section
variable (s : State)
@[simp] theorem popTurn_regs : (popTurn s).regs = s.regs := by unfold popTurn; split <;> rfl
@[simp] theorem popTurn_eec : (popTurn s).eec = s.eec := by unfold popTurn; split <;> rfl
@[simp] theorem popTurn_rxPhase : (popTurn s).rxPhase = s.rxPhase := by unfold popTurn; split <;> rfl
@[simp] theorem popTurn_txAcc : (popTurn s).txAcc = s.txAcc := by unfold popTurn; split <;> rfl
@[simp] theorem popTurn_linkUp : (popTurn s).linkUp = s.linkUp := by unfold popTurn; split <;> rfl
@[simp] theorem popTurn_mem : (popTurn s).mem = s.mem := by unfold popTurn; split <;> rfl
@[simp] theorem popTurn_fault : (popTurn s).fault = s.fault := by unfold popTurn; split <;> rfl
@[simp] theorem popTurn_history : (popTurn s).history = s.history := by unfold popTurn; split <;> rfl
@[simp] theorem popTurn_host : (popTurn s).host = s.host := by unfold popTurn; split <;> rfl
@[simp] theorem popTurn_readData : (popTurn s).readData = s.readData := by unfold popTurn; split <;> rfl
@[simp] theorem popTurn_readBytes : (popTurn s).readBytes = s.readBytes := by unfold popTurn; split <;> rfl
@[simp] theorem popTurn_platform : (popTurn s).platform = s.platform := by unfold popTurn; split <;> rfl
end

/-! ### The rings -/
section
variable (x : RingRegs) (s : State)
@[simp] theorem setRingRegs_rx_regs : (setRingRegs .rx x s).regs = { s.regs with rx := x } := rfl
@[simp] theorem setRingRegs_tx_regs : (setRingRegs .tx x s).regs = { s.regs with tx := x } := rfl
@[simp] theorem ringRegs_rx : ringRegs .rx s = s.regs.rx := rfl
@[simp] theorem ringRegs_tx : ringRegs .tx s = s.regs.tx := rfl
@[simp] theorem setRingRegs_ringRegs (r : Ring) : ringRegs r (setRingRegs r x s) = x := by cases r <;> rfl
end

/-! ### Outcomes -/
@[simp] theorem raise_ne_next (f : Fault) (t : State) : raise f ≠ .next t := by simp [raise]

theorem andThen_next {f : State → State} {r : Result} {t : State} (h : andThen f r = .next t) :
    ∃ u, r = .next u ∧ t = f u := by
  cases r with
  | next u => exact ⟨u, rfl, by simpa [andThen] using h.symm⟩
  | fault _ => simp [andThen] at h
  | refused _ => simp [andThen] at h

end Sys2Proof.Machine
end

