-- ==== Sys2Proof/Laws/Memory.lean ====
section
/-! SUPPORT. Laws of host memory: a read after a write, the canonical form, byte ranges, DMA. -/

namespace Sys2Proof.Machine

/-! ### One byte -/

theorem memLookup_memWrite_same (m : Memory) (a : Nat) (v : Byte) : memLookup (memWrite m a v) a = some v := by
  induction m with
  | nil => simp [memWrite, memLookup]
  | cons c m ih =>
    obtain ⟨b, x⟩ := c
    unfold memWrite
    split
    · simp [memLookup]
    · split
      · simp [memLookup]
      · simp [memLookup, ih, Ne.symm ‹¬a = b›]

theorem memLookup_memWrite_other (m : Memory) {a c : Nat} (v : Byte) (h : c ≠ a) :
    memLookup (memWrite m a v) c = memLookup m c := by
  induction m with
  | nil => simp [memWrite, memLookup, h.symm]
  | cons e m ih =>
    obtain ⟨b, x⟩ := e
    unfold memWrite
    split
    · simp [memLookup, h.symm]
    · split
      · subst b; simp [memLookup, h.symm]
      · simp only [memLookup, ih]

@[simp] theorem memRead_memWrite_same (m : Memory) (a : Nat) (v : Byte) : memRead (memWrite m a v) a = v := by
  simp [memRead, memLookup_memWrite_same]

theorem memRead_memWrite_other (m : Memory) {a c : Nat} (v : Byte) (h : c ≠ a) :
    memRead (memWrite m a v) c = memRead m c := by
  simp [memRead, memLookup_memWrite_other m v h]

/-! ### The canonical form -/

theorem memWfFrom_memWrite (m : Memory) (lo a : Nat) (v : Byte) (hlo : lo ≤ a) (ha : a < 2 ^ 64)
    (h : memWfFrom lo m = true) : memWfFrom lo (memWrite m a v) = true := by
  induction m generalizing lo with
  | nil => simpa [memWrite, memWfFrom, hlo] using ha
  | cons c m ih =>
    obtain ⟨b, x⟩ := c
    simp only [memWfFrom, Bool.and_eq_true, decide_eq_true_eq] at h
    obtain ⟨⟨h1, h2⟩, h3⟩ := h
    unfold memWrite
    split
    · simp only [memWfFrom, Bool.and_eq_true, decide_eq_true_eq]
      exact ⟨⟨hlo, ha⟩, ⟨by omega, h2⟩, h3⟩
    · split
      · subst b
        simp only [memWfFrom, Bool.and_eq_true, decide_eq_true_eq]
        exact ⟨⟨hlo, ha⟩, h3⟩
      · simp only [memWfFrom, Bool.and_eq_true, decide_eq_true_eq]
        exact ⟨⟨h1, h2⟩, ih (b + 1) (by omega) h3⟩

theorem memWrite_wf (m : Memory) (a : Addr) (v : Byte) (h : Memory.wf m = true) :
    Memory.wf (memWrite m a.toNat v) = true :=
  memWfFrom_memWrite m 0 a.toNat v (Nat.zero_le _) a.isLt h

theorem writeBytes_wf (m : Memory) (a : Addr) (bs : List Byte) (h : Memory.wf m = true) :
    Memory.wf (writeBytes m a bs) = true := by
  induction bs generalizing m a with
  | nil => exact h
  | cons b bs ih => exact ih _ _ (memWrite_wf m a b h)

/-! ### Byte ranges -/

@[simp] theorem readBytes_length (m : Memory) (a : Addr) (n : Nat) : (readBytes m a n).length = n := by
  induction n generalizing a with
  | zero => rfl
  | succ n ih => simp [readBytes, ih]

@[simp] theorem toLe_length (n v : Nat) : (toLe n v).length = n := by
  induction n generalizing v with
  | zero => rfl
  | succ n ih => simp [toLe, ih]

/-- A byte outside the written range, taken modulo 2^64, reads as before. -/
theorem memRead_writeBytes_other (m : Memory) (a : Addr) (bs : List Byte) (c : Addr)
    (h : ∀ k < bs.length, c ≠ a + BitVec.ofNat 64 k) :
    memRead (writeBytes m a bs) c.toNat = memRead m c.toNat := by
  induction bs generalizing m a with
  | nil => rfl
  | cons b bs ih =>
    have h0 : c ≠ a := by simpa using h 0 (by simp)
    rw [writeBytes, ih]
    · exact memRead_memWrite_other m b (fun e => h0 (BitVec.eq_of_toNat_eq e))
    · intro k hk e
      apply h (k + 1) (by simpa using hk)
      rw [e]
      apply BitVec.eq_of_toNat_eq
      have h1 : (1 : Addr).toNat = 1 := rfl
      simp only [BitVec.toNat_add, BitVec.toNat_ofNat, h1]
      omega

theorem addr_succ (a : Addr) (k : Nat) : a + 1 + BitVec.ofNat 64 k = a + BitVec.ofNat 64 (k + 1) := by
  apply BitVec.eq_of_toNat_eq
  have h1 : (1 : Addr).toNat = 1 := rfl
  simp only [BitVec.toNat_add, BitVec.toNat_ofNat, h1]
  omega

/-- A byte at distance `n` or more above the base, modulo 2^64, is none of the `n` bytes of a range. -/
theorem ne_of_distance {x a : Addr} {n : Nat} (h : n ≤ (x - a).toNat) : ∀ k < n, x ≠ a + BitVec.ofNat 64 k := by
  rintro k hk rfl
  simp at h
  have := Nat.mod_le k (2 ^ 64)
  omega

/-- What has been written to a range reads back from it; a range longer than the address space would overwrite itself. -/
theorem readBytes_writeBytes (m : Memory) (a : Addr) (bs : List Byte) (h : bs.length ≤ 2 ^ 64) :
    readBytes (writeBytes m a bs) a bs.length = bs := by
  induction bs generalizing m a with
  | nil => rfl
  | cons b bs ih =>
    simp only [List.length_cons] at h
    simp only [List.length_cons, readBytes, writeBytes]
    congr 1
    · rw [memRead_writeBytes_other]
      · simp
      · intro k hk e
        rw [addr_succ] at e
        have := congrArg BitVec.toNat e
        simp at this
        omega
    · exact ih _ _ (by omega)

/-- A range test fails exactly outside the range's bytes. -/
theorem inRange_false {a base : Addr} {n : Nat} (h : inRange a base n = false) {k : Nat} (hk : k < n) :
    a ≠ base + BitVec.ofNat 64 k := by
  rintro rfl
  simp [inRange] at h
  have := Nat.mod_le k (2 ^ 64)
  omega

/-! ### DMA -/

theorem dmaRead_ok {g : DmaAgent} {a : Addr} {n : Nat} {s t : State} {bytes : List Byte}
    (h : dmaRead g a n s = .ok (bytes, t)) :
    dmaOK s.platform a n = true ∧ bytes = readBytes s.mem a n ∧ t = record (.dmaRead g a bytes) s := by
  unfold dmaRead at h
  split at h
  · cases h; exact ⟨‹_›, rfl, rfl⟩
  · cases h

theorem dmaWrite_ok {g : DmaAgent} {a : Addr} {v : List Byte} {s t : State} (h : dmaWrite g a v s = .ok t) :
    dmaOK s.platform a v.length = true ∧ t = record (.dmaWrite g a v) { s with mem := writeBytes s.mem a v } := by
  unfold dmaWrite at h
  split at h
  · cases h; exact ⟨‹_›, rfl⟩
  · cases h

theorem dmaRead_of_ok (g : DmaAgent) {a : Addr} {n : Nat} {s : State} (h : dmaOK s.platform a n = true) :
    dmaRead g a n s = .ok (readBytes s.mem a n, record (.dmaRead g a (readBytes s.mem a n)) s) := by
  unfold dmaRead; rw [if_pos h]

theorem dmaWrite_of_ok (g : DmaAgent) {a : Addr} {v : List Byte} {s : State} (h : dmaOK s.platform a v.length = true) :
    dmaWrite g a v s = .ok (record (.dmaWrite g a v) { s with mem := writeBytes s.mem a v }) := by
  unfold dmaWrite; rw [if_pos h]

end Sys2Proof.Machine
end

