-- ==== Sys2Proof/Laws/Ring.lean ====
section
/-! SUPPORT. Laws of register fields and ring arithmetic: the owned count, the head advance, the buffer size. -/

namespace Sys2Proof.Machine

open Config

theorem hasAny_eq_false {w m : Word} : hasAny w m = false ↔ w &&& m = 0 := by simp [hasAny]

theorem hasAny_eq_true {w m : Word} : hasAny w m = true ↔ w &&& m ≠ 0 := by simp [hasAny]

/-- A one-bit mask tests that bit. -/
theorem hasAny_bit {w m : Word} {i : Nat} (hi : i < 32) (hm : m = BitVec.twoPow 32 i) : hasAny w m = w.getLsbD i := by
  subst hm
  rw [Bool.eq_iff_iff, hasAny_eq_true, BitVec.and_twoPow]
  split
  · simp_all
    intro h
    have := congrArg (fun x => x.getLsbD i) h
    simp [hi] at this
  · simp_all

theorem rctlEn_eq (w : Word) : hasAny w regMap.rctlEn = w.getLsbD 1 := hasAny_bit (by decide) (by decide)
theorem rctlSbp_eq (w : Word) : hasAny w regMap.rctlSbp = w.getLsbD 2 := hasAny_bit (by decide) (by decide)
theorem rctlUpe_eq (w : Word) : hasAny w regMap.rctlUpe = w.getLsbD 3 := hasAny_bit (by decide) (by decide)
theorem rctlMpe_eq (w : Word) : hasAny w regMap.rctlMpe = w.getLsbD 4 := hasAny_bit (by decide) (by decide)
theorem rctlLpe_eq (w : Word) : hasAny w regMap.rctlLpe = w.getLsbD 5 := hasAny_bit (by decide) (by decide)
theorem rctlBam_eq (w : Word) : hasAny w regMap.rctlBam = w.getLsbD 15 := hasAny_bit (by decide) (by decide)
theorem rctlBsex_eq (w : Word) : hasAny w regMap.rctlBsex = w.getLsbD 25 := hasAny_bit (by decide) (by decide)
theorem rctlSecrc_eq (w : Word) : hasAny w regMap.rctlSecrc = w.getLsbD 26 := hasAny_bit (by decide) (by decide)
theorem tctlEn_eq (w : Word) : hasAny w regMap.tctlEn = w.getLsbD 1 := hasAny_bit (by decide) (by decide)
theorem tctlPsp_eq (w : Word) : hasAny w regMap.tctlPsp = w.getLsbD 3 := hasAny_bit (by decide) (by decide)
theorem ctrlSlu_eq (w : Word) : hasAny w regMap.ctrlSlu = w.getLsbD 6 := hasAny_bit (by decide) (by decide)
theorem eerdStart_eq (w : Word) : hasAny w regMap.eerdStart = w.getLsbD 0 := hasAny_bit (by decide) (by decide)

theorem and_and_not (w m : Word) : w &&& m &&& ~~~m = 0 := by
  ext i hi
  simp [BitVec.getElem_and]

theorem ringCount_le (x : RingRegs) : ringCount x ≤ 65528 := by
  unfold ringCount
  have h : (x.len &&& regMap.dlenMask).toNat ≤ regMap.dlenMask.toNat := by
    rw [BitVec.toNat_and]; exact Nat.and_le_right
  have h2 : regMap.dlenMask.toNat = 1048448 := rfl
  have h3 : regMap.descSize = 16 := rfl
  rw [h3]
  omega

theorem nextHead_toNat (x : RingRegs) (h : 0 < ringCount x) :
    (nextHead x).toNat = (x.head.toNat + 1) % ringCount x := by
  have h1 := ringCount_le x
  have h2 := Nat.mod_lt (x.head.toNat + 1) h
  rw [nextHead, BitVec.toNat_ofNat, Nat.mod_eq_of_lt]
  omega

theorem nextHead_lt (x : RingRegs) (h : 0 < ringCount x) : (nextHead x).toNat < ringCount x := by
  rw [nextHead_toNat x h]; exact Nat.mod_lt _ h

theorem ownedCount_le (n h t : Nat) : ownedCount n h t ≤ n := by
  unfold ownedCount
  split
  · omega
  · split
    · omega
    · exact (Nat.mod_lt _ (by omega)).le

/-- D(h, t) without the modulus, for a head below N (R51). -/
theorem ownedCount_of_lt {n h t : Nat} (hn : h < n) :
    ownedCount n h t = if n ≤ t then n else if h ≤ t then t - h else t + n - h := by
  unfold ownedCount
  rw [if_neg (by omega)]
  split
  · rfl
  · split
    · rw [show t + n - h = (t - h) + n by omega, Nat.add_mod_right, Nat.mod_eq_of_lt (by omega)]
    · exact Nat.mod_eq_of_lt (by omega)

theorem ownedCount_zero_of_le {n h t : Nat} (hn : n ≤ h) : ownedCount n h t = 0 := by
  unfold ownedCount
  rw [if_pos (.inr hn)]

/-- The head's advance over an owned descriptor takes one from the owned count, unless the tail stands at or past N. -/
theorem ownedCount_advance {n h t : Nat} (hn : h < n) (hd : 0 < ownedCount n h t) :
    ownedCount n ((h + 1) % n) t = if n ≤ t then n else ownedCount n h t - 1 := by
  have hlt := Nat.mod_lt (h + 1) (show 0 < n by omega)
  have e2 : (h + 1) % n = if h + 1 = n then 0 else h + 1 := by
    split
    · rename_i e; rw [e, Nat.mod_self]
    · exact Nat.mod_eq_of_lt (by omega)
  rw [ownedCount_of_lt hn] at hd ⊢
  rw [ownedCount_of_lt hlt]
  split_ifs at * <;> omega

/-! ### Fields of a descriptor, at the places R110 and R113 give them -/

@[simp] theorem fieldAddr_descBuf (d : Addr) : fieldAddr d regMap.descBuf = d := BitVec.add_zero d
@[simp] theorem fieldAddr_rxdBack (d : Addr) : fieldAddr d regMap.rxdBack = d + 8 := rfl
@[simp] theorem fieldAddr_txdLen (d : Addr) : fieldAddr d regMap.txdLen = d + 8 := rfl
@[simp] theorem fieldAddr_txdSta (d : Addr) : fieldAddr d regMap.txdSta = d + 12 := rfl
@[simp] theorem descBuf_len : regMap.descBuf.len = 8 := rfl
theorem regMap_descSize : regMap.descSize = 16 := rfl

theorem descBuffer_eq (m : Memory) (d : Addr) : descBuffer m d = BitVec.ofNat 64 (le (readBytes m d 8)) := by
  simp [descBuffer]

theorem descLength_eq (m : Memory) (d : Addr) : descLength m d = le (readBytes m (d + 8) 2) := rfl

/-! ### Ownership (R52) -/

theorem inRange_iff (a base : Addr) (n : Nat) : inRange a base n = true ↔ (a - base).toNat < n := decide_eq_true_iff

/-- Something holds of an owned index (R52). -/
theorem ownedIndices_any (x : RingRegs) (p : Nat → Bool) :
    (ownedIndices x).any p = true ↔ ∃ j < ringOwned x, p ((x.head.toNat + j) % ringCount x) = true := by
  simp [ownedIndices]

/-! ### The checks of R53 and R177 to R179 as propositions -/

theorem enableOK_iff (r : Ring) (s : State) :
    enableOK r s = true ↔ ringCount (ringRegs r s) ≠ 0 ∧ (ringRegs r s).head.toNat < ringCount (ringRegs r s) := by
  unfold enableOK
  rw [Bool.and_eq_true, bne_iff_ne, decide_eq_true_iff]

theorem tailOK_iff (r : Ring) (t' : Half) (s : State) :
    tailOK r t' s = true ↔ ringOwned (ringRegs r s) ≤
      ownedCount (ringCount (ringRegs r s)) (ringRegs r s).head.toNat t'.toNat := by
  unfold tailOK
  rw [decide_eq_true_iff]

theorem isStoring_iff (s : State) : isStoring s = true ↔ s.rxPhase ≠ .idle := by
  unfold isStoring
  split <;> simp_all

theorem ringEnabled_rx_iff (s : State) :
    ringEnabled .rx s = true ↔ s.regs.rctl.getLsbD 1 = true ∨ s.rxPhase ≠ .idle := by
  unfold ringEnabled
  rw [Bool.or_eq_true, rctlEn_eq, isStoring_iff]

theorem ringEnabled_tx_iff (s : State) : ringEnabled .tx s = true ↔ s.regs.tctl.getLsbD 1 = true := by
  unfold ringEnabled
  rw [tctlEn_eq]

/-- The buffer size of a legal RCTL is one of the seven sizes of R33. -/
theorem bufSize_pos {w : Word} (h : rctlLegal w = true) : 0 < bufSize w := by
  unfold rctlLegal at h
  simp only [Bool.and_eq_true, Bool.not_eq_true', bne_iff_ne, Bool.and_eq_false_iff, beq_eq_false_iff_ne] at h
  have hb : fieldNat w regMap.rctlBsize regMap.rctlBsizeShift < 4 := by
    have : (w &&& regMap.rctlBsize).toNat ≤ 0x30000 := by rw [BitVec.toNat_and]; exact Nat.and_le_right
    simp only [fieldNat, BitVec.toNat_ushiftRight, Nat.shiftRight_eq_div_pow]
    have h2 : regMap.rctlBsizeShift = 16 := rfl
    rw [h2]
    omega
  unfold bufSize
  obtain ⟨_, h⟩ := h
  generalize fieldNat w regMap.rctlBsize regMap.rctlBsizeShift = z at *
  cases hx : hasAny w regMap.rctlBsex <;> simp only [hx] at h ⊢ <;> interval_cases z <;> simp_all

end Sys2Proof.Machine
end

