-- ==== Sys2Proof/Laws/Exec.lean ====
section
/-! SUPPORT. What a register transaction can do, said once: the inversion lemma of `exec`. -/

namespace Sys2Proof.Machine

open Config

/-- The state with other registers. -/
abbrev withRegs (s : State) (g : Regs) : State := { s with regs := g }

/-- Everything a register transaction that answers a next state can do, with the check it passed (R141 to R176, R201, R202). -/
inductive Effect (s : State) : State → Prop where
  | read (off : Off) (v c : Word) (d : Nat) (h : c = s.regs.icr ∨ c = 0) :
      Effect s (finishRead off v { s with regs := { s.regs with icr := c }, draws := d })
  | ctrl (w : Word) (h : hasAny (w ^^^ s.regs.ctrl) (~~~regMap.ctrlSlu) = false) :
      Effect s (finishWrite regMap.ctrl w (withRegs s { s.regs with ctrl := w }))
  | rctl (w : Word) (h : rctlLegal w = true) (he : turnsOn regMap.rctlEn s.regs.rctl w = true → enableOK .rx s = true) :
      Effect s (finishWrite regMap.rctl w (withRegs s { s.regs with rctl := w }))
  | tctl (w : Word) (h : tctlLegal w = true) (he : turnsOn regMap.tctlEn s.regs.tctl w = true → enableOK .tx s = true) :
      Effect s (finishWrite regMap.tctl w (withRegs s { s.regs with tctl := w }))
  | bal (r : Ring) (off : Off) (w : Word) (h : ringEnabled r s = false) :
      Effect s (finishWrite off w (setRingRegs r { ringRegs r s with bal := w &&& regMap.dbalMask } s))
  | bah (r : Ring) (off : Off) (w : Word) (h : ringEnabled r s = false) :
      Effect s (finishWrite off w (setRingRegs r { ringRegs r s with bah := w } s))
  | len (r : Ring) (off : Off) (w : Word) (h : ringEnabled r s = false) :
      Effect s (finishWrite off w (setRingRegs r { ringRegs r s with len := w &&& regMap.dlenMask } s))
  | head (r : Ring) (off : Off) (w : Word) (h : ringEnabled r s = false) :
      Effect s (finishWrite off w (setRingRegs r { ringRegs r s with head := w.setWidth 16 } s))
  | tail (r : Ring) (off : Off) (w : Word) (h : ringEnabled r s = true → tailOK r (w.setWidth 16) s = true) :
      Effect s (finishWrite off w (setRingRegs r { ringRegs r s with tail := w.setWidth 16 } s))
  | icr (w : Word) : Effect s (finishWrite regMap.icr w (withRegs s { s.regs with icr := s.regs.icr &&& ~~~w }))
  | ims (off : Off) (w m : Word) : Effect s (finishWrite off w (withRegs s { s.regs with ims := m }))
  | mta (i : BitVec 7) (w : Word) : Effect s (finishWrite (mtaOff i) w (mtaSet i w s))
  | eerd (w : Word) (h : s.eec.busy = false) :
      Effect s (finishWrite regMap.eerd w { s with eec := eecAfterWrite w s.eec })

theorem readStored_effect {off : Off} {v : Word} {s t : State} (h : readStored off v s = .next t) : Effect s t := by
  cases h; exact .read off v s.regs.icr s.draws (.inl rfl)

theorem writeBal_effect {r : Ring} {off : Off} {w : Word} {s t : State} (h : writeBal r off w s = .next t) :
    Effect s t := by
  unfold writeBal configWriteOK at h
  split at h
  · cases h; exact .bal r off w (by simp_all)
  · simp at h

theorem writeBah_effect {r : Ring} {off : Off} {w : Word} {s t : State} (h : writeBah r off w s = .next t) :
    Effect s t := by
  unfold writeBah configWriteOK at h
  split at h
  · cases h; exact .bah r off w (by simp_all)
  · simp at h

theorem writeLen_effect {r : Ring} {off : Off} {w : Word} {s t : State} (h : writeLen r off w s = .next t) :
    Effect s t := by
  unfold writeLen configWriteOK at h
  split at h
  · split at h
    · simp at h
    · cases h; exact .len r off w (by simp_all)
  · simp at h

theorem writeHead_effect {r : Ring} {off : Off} {w : Word} {s t : State} (h : writeHead r off w s = .next t) :
    Effect s t := by
  unfold writeHead configWriteOK at h
  split at h
  · split at h
    · simp at h
    · cases h; exact .head r off w (by simp_all)
  · simp at h

theorem writeTail_effect {r : Ring} {off : Off} {w : Word} {s t : State} (h : writeTail r off w s = .next t) :
    Effect s t := by
  unfold writeTail at h
  split at h
  · simp at h
  · split at h
    · simp at h
    · cases h
      refine .tail r off w fun he => ?_
      simp_all

theorem execWrCtrl_effect {w : Word} {s t : State} (h : execWrCtrl w s = .next t) : Effect s t := by
  unfold execWrCtrl at h
  split at h
  · simp at h
  · cases h; exact .ctrl w (by simp_all)

theorem execWrRctl_effect {w : Word} {s t : State} (h : execWrRctl w s = .next t) : Effect s t := by
  unfold execWrRctl at h
  split at h
  · simp at h
  · split at h
    · simp at h
    · cases h; exact .rctl w (by simp_all) (fun _ => by simp_all)

theorem execWrTctl_effect {w : Word} {s t : State} (h : execWrTctl w s = .next t) : Effect s t := by
  unfold execWrTctl at h
  split at h
  · simp at h
  · split at h
    · simp at h
    · cases h; exact .tctl w (by simp_all) (fun _ => by simp_all)

theorem execRdEerd_effect {s t : State} (h : execRdEerd s = .next t) : Effect s t := by
  unfold execRdEerd at h
  split at h
  · cases h; exact .read _ _ s.regs.icr s.draws (.inl rfl)
  · cases h; exact .read _ _ s.regs.icr (s.draws + 1) (.inl rfl)

theorem execWrEerd_effect {w : Word} {s t : State} (h : execWrEerd w s = .next t) : Effect s t := by
  unfold execWrEerd at h
  split at h
  · simp at h
  · cases h; exact .eerd w (by simp_all)

theorem execRdIcr_effect {s t : State} (h : execRdIcr s = .next t) : Effect s t := by
  cases h
  exact .read _ _ _ s.draws (by split <;> simp)

/-- The inversion lemma of `exec`. -/
theorem exec_effect {i : Instr} {s t : State} (h : exec i s = .next t) : Effect s t := by
  cases i with
  | rdCtrl => exact readStored_effect h
  | wrCtrl w => exact execWrCtrl_effect h
  | rdStatus => cases h; exact .read _ _ s.regs.icr (s.draws + 1) (.inl rfl)
  | wrStatus w => simp [exec, execWrStatus] at h
  | rdEerd => exact execRdEerd_effect h
  | wrEerd w => exact execWrEerd_effect h
  | rdIcr => exact execRdIcr_effect h
  | wrIcr w => cases h; exact .icr w
  | rdIms => cases h; exact .read _ _ s.regs.icr (s.draws + 1) (.inl rfl)
  | wrIms w => cases h; exact .ims _ w _
  | rdImc => simp [exec, execRdImc] at h
  | wrImc w => cases h; exact .ims _ w _
  | rdRctl => exact readStored_effect h
  | wrRctl w => exact execWrRctl_effect h
  | rdTctl => exact readStored_effect h
  | wrTctl w => exact execWrTctl_effect h
  | rdRdbal => exact readStored_effect h
  | wrRdbal w => exact writeBal_effect h
  | rdRdbah => exact readStored_effect h
  | wrRdbah w => exact writeBah_effect h
  | rdRdlen => exact readStored_effect h
  | wrRdlen w => exact writeLen_effect h
  | rdRdh => exact readStored_effect h
  | wrRdh w => exact writeHead_effect h
  | rdRdt => exact readStored_effect h
  | wrRdt w => exact writeTail_effect h
  | rdTdbal => exact readStored_effect h
  | wrTdbal w => exact writeBal_effect h
  | rdTdbah => exact readStored_effect h
  | wrTdbah w => exact writeBah_effect h
  | rdTdlen => exact readStored_effect h
  | wrTdlen w => exact writeLen_effect h
  | rdTdh => exact readStored_effect h
  | wrTdh w => exact writeHead_effect h
  | rdTdt => exact readStored_effect h
  | wrTdt w => exact writeTail_effect h
  | rdMta i => exact readStored_effect h
  | wrMta i w => cases h; exact .mta i w

end Sys2Proof.Machine
end

