-- ==== Sys2Proof/Laws/Turns.lean ====
section
/-! SUPPORT. What each agent's turn can do, said once: inversion lemmas of HOST's step and of the device agents' steps. -/

namespace Sys2Proof.Machine

open Config

/-! ### HOST -/

/-- Everything a turn of HOST that answers a next state can do: a register transaction, a store to bytes the device does not
own, or a change of HOST's own state and of what a load returned. -/
inductive HostEffect (s : State) : State → Prop where
  | transaction (p : List HostOp) (u : State) (h : HostState) (e : Effect (setProg p s) u) : HostEffect s { u with host := h }
  | store (p : List HostOp) (a : Addr) (v : List Byte) (h : hostOwnedAny (setProg p s) a v.length = false) :
      HostEffect s { setProg p s with mem := writeBytes s.mem a v }
  | own (h : HostState) (b : List Byte) (d : Nat) : HostEffect s { s with host := h, readBytes := b, draws := d }

theorem hostTransact_next {a w : Word} {s t : State} (h : hostTransact a w s = .next t) :
    ∃ i, decode a w = .ok i ∧ exec i s = .next t := by
  unfold hostTransact at h
  split at h
  · exact ⟨_, ‹_›, h⟩
  · simp at h

theorem hostTransact_effect {p : List HostOp} {a w : Word} {s t : State} (h : hostTransact a w (setProg p s) = .next t) :
    HostEffect s t := by
  obtain ⟨_, _, h⟩ := hostTransact_next h
  exact .transaction p t t.host (exec_effect h)

theorem hostWrite_effect {p : List HostOp} {a : Addr} {v : List Byte} {s t : State}
    (h : hostWrite a v (setProg p s) = .next t) : HostEffect s t := by
  unfold hostWrite at h
  split at h
  · simp at h
  · cases h; exact .store p a v (by simp_all)

/-- Every operation of HOST's program is one of the three effects. -/
theorem runOp_effect {op : HostOp} {p : List HostOp} {s t : State} (h : runOp op (setProg p s) = .next t) :
    HostEffect s t := by
  cases op with
  | transact a w => exact hostTransact_effect h
  | readReg x off =>
    obtain ⟨u, hu, rfl⟩ := andThen_next h
    obtain ⟨_, _, hu⟩ := hostTransact_next hu
    exact .transaction p u _ (exec_effect hu)
  | writeReg off e => exact hostTransact_effect h
  | hostRead a n => cases h; exact .own _ _ _
  | hostWrite a v => exact hostWrite_effect h
  | memr x w e => cases h; exact .own _ _ _
  | memw w a e => exact hostWrite_effect h
  | assign x e => cases h; exact .own _ s.readBytes s.draws
  | seq a b => cases h; exact .own _ s.readBytes s.draws
  | ifBits x m body =>
    simp only [runOp] at h
    split at h <;> cases h <;> exact .own _ s.readBytes s.draws
  | untilBits x m body => cases h; exact .own _ s.readBytes s.draws
  | untilTest x m body =>
    simp only [runOp] at h
    split at h <;> cases h <;> exact .own _ s.readBytes s.draws
  | resolve regions =>
    simp only [runOp, resolveBase] at h
    split at h
    · cases h; exact .own _ s.readBytes s.draws
    · split at h <;> cases h <;> exact .own _ s.readBytes s.draws
  | stationAddress x y z => cases h; exact .own _ s.readBytes s.draws
  | reach q => cases h; exact .own _ s.readBytes s.draws
  | halt why => cases h; exact .own _ s.readBytes s.draws

/-- A store range is owned in some byte exactly if one of its bytes is. -/
theorem hostOwnedAny_iff (s : State) (a : Addr) (n : Nat) :
    hostOwnedAny s a n = true ↔ ∃ k < n, hostOwnedByDevice s (a + BitVec.ofNat 64 k) = true := by
  induction n generalizing a with
  | zero => simp [hostOwnedAny]
  | succ n ih =>
    simp only [hostOwnedAny, Bool.or_eq_true, ih]
    constructor
    · rintro (h | ⟨k, hk, h⟩)
      · exact ⟨0, by omega, by simpa using h⟩
      · exact ⟨k + 1, by omega, by rw [← addr_succ]; exact h⟩
    · rintro ⟨k, hk, h⟩
      cases k with
      | zero => exact .inl (by simpa using h)
      | succ k => exact .inr ⟨k, by omega, by rw [addr_succ]; exact h⟩

/-- The inversion lemma of HOST's turn. -/
theorem hostStep_effect {s t : State} (h : hostStep s = .next t) : HostEffect s t := by
  unfold hostStep at h
  split at h
  · cases h; exact .own s.host s.readBytes s.draws
  · exact runOp_effect h

/-! ### EEC and LINK -/

theorem eecStep_next {s t : State} (h : eecStep s = .next t) :
    t = s ∨ (eecEnabled s = true ∧ t = { s with eec :=
      { s.eec with data := some (eepromWord s.platform s.eec.addr), done := true, busy := false } }) := by
  unfold eecStep at h
  split at h <;> cases h
  · exact .inr ⟨‹_›, rfl⟩
  · exact .inl rfl

theorem linkUpStep_next {s t : State} (h : linkUpStep s = .next t) :
    t = s ∨ (linkUpEnabled s = true ∧ t = setCause regMap.icrLsc { s with linkUp := true }) := by
  unfold linkUpStep at h
  split at h <;> cases h
  · exact .inr ⟨‹_›, rfl⟩
  · exact .inl rfl

theorem linkDownStep_next {s t : State} (h : linkDownStep s = .next t) :
    t = s ∨ (s.linkUp = true ∧ t = setCause regMap.icrLsc { s with linkUp := false }) := by
  unfold linkDownStep at h
  split at h <;> cases h
  · exact .inr ⟨‹_›, rfl⟩
  · exact .inl rfl

theorem frameFate_drop {f : Frame} {s : State} {r : DropReason} (h : dropReason f s.regs = some r) :
    frameFate f s = record (.drop f r) s := by
  unfold frameFate; rw [h]

theorem frameFate_accept {f : Frame} {s : State} (h : dropReason f s.regs = none)
    (hk : (acceptJob f s.regs).k ≤ ringOwned s.regs.rx) :
    frameFate f s = { s with rxPhase := .storing (acceptJob f s.regs) } := by
  unfold frameFate; rw [h]; exact if_pos hk

theorem frameFate_overrun {f : Frame} {s : State} (h : dropReason f s.regs = none)
    (hk : ¬(acceptJob f s.regs).k ≤ ringOwned s.regs.rx) :
    frameFate f s = setCause regMap.icrRxo (record (.drop f .noDescriptors) s) := by
  unfold frameFate; rw [h]; exact if_neg hk

/-- A frame's arrival: no step, a drop, an overrun, or an accepted frame whose k descriptors are owned. -/
theorem frameArrives_next {f : Frame} {s t : State} (h : frameArrives f s = .next t) :
    t = s ∨ (frameEnabled s = true ∧
      ((∃ r, dropReason f s.regs = some r ∧ t = record (.drop f r) (record (.frameIn f) s)) ∨
       (dropReason f s.regs = none ∧ ¬(acceptJob f s.regs).k ≤ ringOwned s.regs.rx ∧
          t = setCause regMap.icrRxo (record (.drop f .noDescriptors) (record (.frameIn f) s))) ∨
       (dropReason f s.regs = none ∧ (acceptJob f s.regs).k ≤ ringOwned s.regs.rx ∧
          t = { record (.frameIn f) s with rxPhase := .storing (acceptJob f s.regs) }))) := by
  unfold frameArrives at h
  split at h
  · cases h
    refine .inr ⟨‹_›, ?_⟩
    rcases hd : dropReason f s.regs with _ | r
    · by_cases hk : (acceptJob f s.regs).k ≤ ringOwned s.regs.rx
      · exact .inr (.inr ⟨rfl, hk, frameFate_accept (s := record (.frameIn f) s) hd hk⟩)
      · exact .inr (.inl ⟨rfl, hk, frameFate_overrun (s := record (.frameIn f) s) hd hk⟩)
    · exact .inl ⟨r, rfl, frameFate_drop (s := record (.frameIn f) s) hd⟩
  · cases h; exact .inl rfl

/-! ### RXE -/

/-- The write-back half with its fields at the bytes R233 gives them. -/
theorem rxWriteBack_eq (len : Nat) (last : Bool) (err : Byte) (csum : Half) :
    rxWriteBack len last err csum =
      toLe 2 len ++ toLe 2 csum.toNat ++ [if last then 0x03 else 0x01, if last then err else 0, 0, 0] := by
  unfold rxWriteBack
  cases last <;> rfl

@[simp] theorem rxWriteBack_length (len : Nat) (last : Bool) (err : Byte) (csum : Half) :
    (rxWriteBack len last err csum).length = 8 := by
  simp [rxWriteBack_eq, toLe]

/-- The buffer address in the descriptor at RDH (R232). -/
abbrev rxBuffer (s : State) : Addr := BitVec.ofNat 64 (le (readBytes s.mem (rxDesc s) 8))

/-- The write-back bytes of the piece at hand, with the next draw as checksum (R233). -/
abbrev pieceWriteBack (job : RxJob) (s : State) : List Byte :=
  rxWriteBack (pieceBytes job).length (isLastPiece job) job.err (draw16 s.draws)

/-- The state with the piece's memory written and recorded, before the head advance. -/
def pieceStored (job : RxJob) (s : State) : State :=
  { s with
      mem := writeBytes (writeBytes s.mem (rxBuffer s) (pieceBytes job)) (rxDesc s + 8) (pieceWriteBack job s)
      draws := s.draws + 1
      history := s.history ++ [.dmaRead .rxe (rxDesc s) (readBytes s.mem (rxDesc s) 8),
        .dmaWrite .rxe (rxBuffer s) (pieceBytes job), .dmaWrite .rxe (rxDesc s + 8) (pieceWriteBack job s)] }

/-- A piece that is stored: DmaOK admitted its three accesses, and the state is what R232 says. -/
theorem storePiece_next {job : RxJob} {s t : State} (h : storePiece job s = .next t) :
    dmaOK s.platform (rxDesc s) 8 = true ∧ dmaOK s.platform (rxBuffer s) (pieceBytes job).length = true ∧
    dmaOK s.platform (rxDesc s + 8) 8 = true ∧ t = afterPiece job (pieceStored job s) := by
  unfold storePiece at h
  simp only [fieldAddr_descBuf, descBuf_len, fieldAddr_rxdBack] at h
  split at h
  · simp at h
  · rename_i bytes s1 h1
    obtain ⟨e1, rfl, rfl⟩ := dmaRead_ok h1
    split at h
    · simp at h
    · rename_i s2 h2
      obtain ⟨e2, rfl⟩ := dmaWrite_ok h2
      split at h
      · simp at h
      · rename_i s3 h3
        obtain ⟨e3, rfl⟩ := dmaWrite_ok h3
        rw [rxWriteBack_length] at e3
        cases h
        refine ⟨e1, e2, e3, ?_⟩
        congr 1
        simp [pieceStored, record, drawHalf, rxBuffer, pieceWriteBack]

/-- A piece whose three accesses DmaOK admits is stored (R232). -/
theorem storePiece_of_ok {job : RxJob} {s : State} (h1 : dmaOK s.platform (rxDesc s) 8 = true)
    (h2 : dmaOK s.platform (rxBuffer s) (pieceBytes job).length = true) (h3 : dmaOK s.platform (rxDesc s + 8) 8 = true) :
    storePiece job s = .next (afterPiece job (pieceStored job s)) := by
  unfold storePiece
  simp only [fieldAddr_descBuf, descBuf_len, fieldAddr_rxdBack]
  rw [dmaRead_of_ok .rxe h1]
  dsimp only
  rw [dmaWrite_of_ok .rxe (by exact h2)]
  dsimp only
  rw [dmaWrite_of_ok .rxe (by rw [rxWriteBack_length]; exact h3)]
  dsimp only
  congr 2
  simp [pieceStored, record, drawHalf, rxBuffer, pieceWriteBack]

theorem rxeStep_next {s t : State} (h : rxeStep s = .next t) :
    t = s ∨ ∃ job, s.rxPhase = .storing job ∧ job.j < job.k ∧ storePiece job s = .next t := by
  unfold rxeStep at h
  split at h
  · cases h; exact .inl rfl
  · split at h
    · exact .inr ⟨_, ‹_›, ‹_›, h⟩
    · cases h; exact .inl rfl

/-! ### TXE -/

theorem endOfPacket_shape (cmd : Byte) (s : State) :
    ∃ acc hist, endOfPacket cmd s = { s with txAcc := acc, history := hist } := by
  unfold endOfPacket
  split
  · split
    · exact ⟨s.txAcc, s.history, rfl⟩
    · exact ⟨[], _, rfl⟩
  · exact ⟨s.txAcc, s.history, rfl⟩

theorem txData_shape {d : TxDesc} {s t : State} (h : txData d s = .ok t) :
    ∃ acc hist, t = { s with txAcc := acc, history := hist } := by
  unfold txData at h
  split at h
  · cases h; exact ⟨s.txAcc, s.history, rfl⟩
  · split at h
    · cases h
    · rename_i h1
      obtain ⟨_, _, rfl⟩ := dmaRead_ok h1
      cases h
      exact ⟨_, _, rfl⟩

theorem txReport_shape {a : Addr} {d : TxDesc} {s t : State} (h : txReport a d s = .ok t) :
    (cmdHas d.cmd regMap.txdRs = false ∧ t = s) ∨
    (cmdHas d.cmd regMap.txdRs = true ∧ dmaOK s.platform (a + 12) 1 = true ∧
      t = setCause regMap.icrTxdw (record (.dmaWrite .txe (a + 12) [reportedSta d.sta])
        { s with mem := writeBytes s.mem (a + 12) [reportedSta d.sta] })) := by
  unfold txReport at h
  split at h
  · split at h
    · cases h
    · rename_i h1
      obtain ⟨e, rfl⟩ := dmaWrite_ok h1
      cases h
      exact .inr ⟨‹_›, e, rfl⟩
  · cases h; exact .inl ⟨by simp_all, rfl⟩

/-- The descriptor at TDH as memory holds it (R261). -/
abbrev txCurrent (s : State) : TxDesc := txDescOf (readBytes s.mem (txDescAddr s) regMap.descSize)

/-- What a processed descriptor leaves: the assembled bytes and the history change; with RS its STA byte is written and TXDW
set; then the head advances. -/
theorem sendDesc_next {s t : State} (h : sendDesc s = .next t) :
    dmaOK s.platform (txDescAddr s) regMap.descSize = true ∧ cmdHas (txCurrent s).cmd regMap.txdUnmodelled = false ∧
    ∃ acc hist,
      (cmdHas (txCurrent s).cmd regMap.txdRs = false ∧ t = advanceTdh { s with txAcc := acc, history := hist }) ∨
      (cmdHas (txCurrent s).cmd regMap.txdRs = true ∧ dmaOK s.platform (txDescAddr s + 12) 1 = true ∧
        t = advanceTdh (setCause regMap.icrTxdw { s with
          txAcc := acc, history := hist
          mem := writeBytes s.mem (txDescAddr s + 12) [reportedSta (txCurrent s).sta] })) := by
  unfold sendDesc at h
  split at h
  · simp at h
  · rename_i bytes s1 h1
    obtain ⟨e1, rfl, rfl⟩ := dmaRead_ok h1
    split at h
    · simp at h
    · rename_i hc
      split at h
      · simp at h
      · rename_i s2 h2
        obtain ⟨acc, hist, rfl⟩ := txData_shape h2
        obtain ⟨acc', hist', hp⟩ := endOfPacket_shape (txDescOf (readBytes s.mem (txDescAddr s) regMap.descSize)).cmd
          { record (.dmaRead .txe (txDescAddr s) (readBytes s.mem (txDescAddr s) regMap.descSize)) s with
            txAcc := acc, history := hist }
        rw [hp] at h
        split at h
        · simp at h
        · rename_i s3 h3
          cases h
          refine ⟨e1, by simpa using hc, acc', ?_⟩
          obtain ⟨hr, rfl⟩ | ⟨hr, e, rfl⟩ := txReport_shape h3
          · exact ⟨hist', .inl ⟨hr, rfl⟩⟩
          · exact ⟨_, .inr ⟨hr, e, rfl⟩⟩

theorem txeStep_next {s t : State} (h : txeStep s = .next t) : t = s ∨ (txeEnabled s = true ∧ sendDesc s = .next t) := by
  unfold txeStep at h
  split at h
  · exact .inr ⟨‹_›, h⟩
  · cases h; exact .inl rfl

/-! What each part of a descriptor's step answers when DmaOK admits its accesses (R261 to R270). -/

/-- A one-bit CMD mask tests that bit. -/
theorem cmdHas_bit {c m : Byte} {i : Nat} (hi : i < 8) (hm : m = BitVec.twoPow 8 i) : cmdHas c m = c.getLsbD i := by
  subst hm
  rw [Bool.eq_iff_iff, cmdHas, bne_iff_ne, BitVec.and_twoPow]
  split
  · simp_all
    intro h
    have := congrArg (fun x => x.getLsbD i) h
    simp [hi] at this
  · simp_all
theorem txdEop_eq (c : Byte) : cmdHas c regMap.txdEop = c.getLsbD 0 := cmdHas_bit (by decide) (by decide)
theorem txdIfcs_eq (c : Byte) : cmdHas c regMap.txdIfcs = c.getLsbD 1 := cmdHas_bit (by decide) (by decide)
theorem txdRs_eq (c : Byte) : cmdHas c regMap.txdRs = c.getLsbD 3 := cmdHas_bit (by decide) (by decide)
theorem txdUnmodelled_iff (c : Byte) : cmdHas c regMap.txdUnmodelled = true ↔ c &&& 0xF4 ≠ 0 := bne_iff_ne

/-- A descriptor's fields at the bytes R113 gives them. -/
theorem txDescOf_eq (bytes : List Byte) : txDescOf bytes =
    { addr := BitVec.ofNat 64 (le (bytes.take 8)), len := le ((bytes.drop 8).take 2)
      cmd := bytes.getD 11 0, sta := bytes.getD 12 0 } := rfl

/-- The data read, admitted (R263). -/
theorem txData_of_ok {d : TxDesc} {s : State} (h : 0 < d.len → dmaOK s.platform d.addr d.len = true) :
    txData d s = .ok { s with
      txAcc := s.txAcc ++ readBytes s.mem d.addr d.len
      history := s.history ++ if 0 < d.len then [.dmaRead .txe d.addr (readBytes s.mem d.addr d.len)] else [] } := by
  unfold txData
  split
  · rename_i h0
    simp [h0, readBytes]
  · rename_i h0
    have h1 : 0 < d.len := Nat.pos_of_ne_zero h0
    rw [dmaRead_of_ok .txe (h h1), if_pos h1]
    rfl

/-- The end-of-packet rule with its cases: EOP or not, bytes assembled or not. -/
theorem endOfPacket_eq (cmd : Byte) (s : State) :
    endOfPacket cmd s = { s with
      txAcc := if cmdHas cmd regMap.txdEop then [] else s.txAcc
      history := s.history ++
        if cmdHas cmd regMap.txdEop = true ∧ s.txAcc ≠ [] then [.frameOut (finishFrame s.regs.tctl cmd s.txAcc)] else [] } := by
  unfold endOfPacket
  split
  · rename_i h
    split
    · rename_i h0
      simp [h, h0]
      rw [← h0]
    · rename_i b bs h0
      simp [h, h0, record]
  · rename_i h
    simp [h]

/-- The status write-back, admitted (R268, R269). -/
theorem txReport_of_ok {a : Addr} {d : TxDesc} {s : State}
    (h : cmdHas d.cmd regMap.txdRs = true → dmaOK s.platform (a + 12) 1 = true) :
    txReport a d s = .ok (if cmdHas d.cmd regMap.txdRs then
      setCause regMap.icrTxdw (record (.dmaWrite .txe (a + 12) [reportedSta d.sta])
        { s with mem := writeBytes s.mem (a + 12) [reportedSta d.sta] }) else s) := by
  unfold txReport
  split
  · rename_i h0
    rw [fieldAddr_txdSta, dmaWrite_of_ok .txe (h h0)]
  · rfl

/-- The head advance and TXQE (R270). -/
theorem advanceTdh_eq (s : State) :
    advanceTdh s = { s with regs := { s.regs with
      tx := { s.regs.tx with head := nextHead s.regs.tx }
      icr := s.regs.icr ||| if s.regs.tx.tail.toNat < ringCount s.regs.tx ∧ nextHead s.regs.tx = s.regs.tx.tail then
        regMap.icrTxqe else 0 } } := by
  unfold advanceTdh
  dsimp only
  split
  · rename_i h
    rfl
  · rename_i h
    simp [setRingRegs]

/-- A turn of TXE whose guard holds processes the descriptor at TDH (R260). -/
theorem txeStep_of_enabled {s : State} (h : txeEnabled s = true) : txeStep s = sendDesc s := if_pos h

theorem txeEnabled_iff (s : State) : txeEnabled s = true ↔ s.regs.tctl.getLsbD 1 = true ∧ ringCount s.regs.tx ≠ 0 ∧
    s.regs.tx.head.toNat < ringCount s.regs.tx ∧ 0 < ringOwned s.regs.tx := by
  simp only [txeEnabled, Bool.and_eq_true, bne_iff_ne, decide_eq_true_iff, tctlEn_eq, and_assoc]

/-- A descriptor whose fetch DmaOK admits and whose CMD is admitted (R261, R262). -/
theorem sendDesc_of_fetch {s : State} (h1 : dmaOK s.platform (txDescAddr s) 16 = true)
    (h2 : cmdHas (txCurrent s).cmd regMap.txdUnmodelled = false) :
    sendDesc s =
      match txData (txCurrent s) (record (.dmaRead .txe (txDescAddr s) (readBytes s.mem (txDescAddr s) 16)) s) with
      | .error f => raise f
      | .ok s2 =>
        match txReport (txDescAddr s) (txCurrent s) (endOfPacket (txCurrent s).cmd s2) with
        | .error f => raise f
        | .ok s3 => .next (advanceTdh s3) := by
  unfold sendDesc
  rw [regMap_descSize, dmaRead_of_ok .txe h1]
  dsimp only
  rw [if_neg (by rw [← regMap_descSize, h2]; decide)]
  rfl

/-! ### One step of the machine -/

theorem step_next {s t : State} (h : step s = .next t) : s.fault = none ∧ takeTurn (nextTurn s) (popTurn s) = .next t := by
  unfold step at h
  split at h
  · simp at h
  · exact ⟨‹_›, h⟩

theorem step_of_no_fault {s : State} (h : s.fault = none) : step s = takeTurn (nextTurn s) (popTurn s) := by
  unfold step
  rw [h]

end Sys2Proof.Machine
end

