-- ==== Sys2Proof/Laws/Device.lean ====
section
/-! SUPPORT. What every device agent's turn leaves alone, said once for all of them: the inversion lemma `takeTurn_device`. -/

namespace Sys2Proof.Machine

open Config

/-- Taking a turn off the schedule changes the schedule and the draw counter only. -/
theorem popTurn_eq (s : State) : ∃ ts d, popTurn s = { s with turns := ts, draws := d } := by
  unfold popTurn; split <;> exact ⟨_, _, rfl⟩

/-- The end of a piece advances RDH and sets causes; in memory, EEC and HOST it changes nothing. -/
theorem afterPiece_shape (job : RxJob) (s : State) :
    ∃ c ph, afterPiece job s = { s with
      rxPhase := ph
      regs := { s.regs with rx := { s.regs.rx with head := nextHead s.regs.rx }, icr := s.regs.icr ||| c } } := by
  unfold afterPiece
  split
  · exact ⟨_, _, rfl⟩
  · exact ⟨0, _, by simp [setRingRegs]; rfl⟩

/-- The end of a descriptor advances TDH and sets causes, and nothing else. -/
theorem advanceTdh_shape (s : State) :
    ∃ c, advanceTdh s = { s with
      regs := { s.regs with tx := { s.regs.tx with head := nextHead s.regs.tx }, icr := s.regs.icr ||| c } } := by
  unfold advanceTdh
  dsimp only
  split
  · exact ⟨_, rfl⟩
  · exact ⟨0, by simp [setRingRegs]⟩

/-- A processed descriptor adds events to the history and takes none out. -/
theorem sendDesc_history {s t : State} (h : sendDesc s = .next t) : ∃ es, t.history = s.history ++ es := by
  unfold sendDesc at h
  split at h
  · simp at h
  · rename_i bytes s1 h1
    obtain ⟨_, rfl, rfl⟩ := dmaRead_ok h1
    split at h
    · simp at h
    · split at h
      · simp at h
      · rename_i s2 h2
        have h3 : ∃ es, s2.history = s.history ++ es := by
          unfold txData at h2
          split at h2
          · cases h2; exact ⟨_, rfl⟩
          · split at h2
            · cases h2
            · rename_i hr
              obtain ⟨_, _, rfl⟩ := dmaRead_ok hr
              cases h2; exact ⟨_, by simp [record]; rfl⟩
        have h4 : ∃ es, (endOfPacket (txDescOf (readBytes s.mem (txDescAddr s) regMap.descSize)).cmd s2).history =
            s.history ++ es := by
          obtain ⟨es, e⟩ := h3
          unfold endOfPacket
          split
          · split
            · exact ⟨_, e⟩
            · exact ⟨es ++ [_], by simp [record, e]; rfl⟩
          · exact ⟨_, e⟩
        split at h
        · simp at h
        · rename_i s3 h5
          cases h
          obtain ⟨c, hc⟩ := advanceTdh_shape s3
          rw [hc]
          obtain ⟨es, e⟩ := h4
          obtain ⟨_, rfl⟩ | ⟨_, _, rfl⟩ := txReport_shape h5
          · exact ⟨es, e⟩
          · exact ⟨es ++ [_], by simp [record, e, setCause]; rfl⟩

/-- What every turn of a device agent leaves: of the register file only cause bits are set and the heads move; HOST, its results,
the parameters and the fault record stay; the history grows. -/
structure DeviceEffect (s t : State) : Prop where
  regs : ∃ c hr ht, t.regs = { s.regs with
    icr := s.regs.icr ||| c, rx := { s.regs.rx with head := hr }, tx := { s.regs.tx with head := ht } }
  host : t.host = s.host
  readData : t.readData = s.readData
  readBytes : t.readBytes = s.readBytes
  platform : t.platform = s.platform
  fault : t.fault = s.fault
  turns : t.turns = s.turns
  history : ∃ es, t.history = s.history ++ es
  mem : Memory.wf s.mem = true → Memory.wf t.mem = true

/-- A turn that changes one agent's own state, and at most sets causes. -/
theorem DeviceEffect.of_agent (s : State) (c : Word) (e : Eec) (ph : RxPhase) (l : Bool) (hs : List Event)
    (hh : ∃ es, hs = s.history ++ es) :
    DeviceEffect s { s with
      regs := { s.regs with icr := s.regs.icr ||| c }, eec := e, rxPhase := ph, linkUp := l, history := hs } :=
  ⟨⟨c, s.regs.rx.head, s.regs.tx.head, rfl⟩, rfl, rfl, rfl, rfl, rfl, rfl, hh, id⟩

theorem DeviceEffect.refl (s : State) : DeviceEffect s s :=
  ⟨⟨0, s.regs.rx.head, s.regs.tx.head, by simp⟩, rfl, rfl, rfl, rfl, rfl, rfl, ⟨[], by simp⟩, id⟩

theorem rxeStep_device {s t : State} (h : rxeStep s = .next t) : DeviceEffect s t := by
  obtain rfl | ⟨job, _, _, h⟩ := rxeStep_next h
  · exact .refl _
  · obtain ⟨_, _, _, rfl⟩ := storePiece_next h
    obtain ⟨c, ph, e⟩ := afterPiece_shape job (pieceStored job s)
    rw [e]
    exact ⟨⟨c, nextHead s.regs.rx, s.regs.tx.head, rfl⟩, rfl, rfl, rfl, rfl, rfl, rfl, ⟨_, rfl⟩,
      fun hm => writeBytes_wf _ _ _ (writeBytes_wf _ _ _ hm)⟩

theorem txeStep_device {s t : State} (h : txeStep s = .next t) : DeviceEffect s t := by
  obtain rfl | ⟨_, h⟩ := txeStep_next h
  · exact .refl _
  · have hh := sendDesc_history h
    obtain ⟨_, _, acc, hist, ⟨_, rfl⟩ | ⟨_, _, rfl⟩⟩ := sendDesc_next h
    · obtain ⟨c, hc⟩ := advanceTdh_shape { s with txAcc := acc, history := hist }
      rw [hc] at hh ⊢
      exact ⟨⟨c, s.regs.rx.head, nextHead s.regs.tx, rfl⟩, rfl, rfl, rfl, rfl, rfl, rfl, hh, id⟩
    · obtain ⟨c, hc⟩ := advanceTdh_shape (setCause regMap.icrTxdw { s with
        txAcc := acc, history := hist
        mem := writeBytes s.mem (txDescAddr s + 12) [reportedSta (txCurrent s).sta] })
      rw [hc] at hh ⊢
      exact ⟨⟨regMap.icrTxdw ||| c, s.regs.rx.head, nextHead s.regs.tx, by simp [setCause, BitVec.or_assoc]⟩, rfl, rfl, rfl,
        rfl, rfl, rfl, hh, fun hm => writeBytes_wf _ _ _ hm⟩

theorem frameArrives_device {f : Frame} {s t : State} (h : frameArrives f s = .next t) : DeviceEffect s t := by
  obtain rfl | ⟨_, ⟨r, _, rfl⟩ | ⟨_, _, rfl⟩ | ⟨_, _, rfl⟩⟩ := frameArrives_next h
  · exact .refl _
  · exact ⟨⟨0, s.regs.rx.head, s.regs.tx.head, by simp [record]⟩, rfl, rfl, rfl, rfl, rfl, rfl, ⟨_, by simp [record]; rfl⟩, id⟩
  · exact ⟨⟨_, s.regs.rx.head, s.regs.tx.head, rfl⟩, rfl, rfl, rfl, rfl, rfl, rfl, ⟨_, by simp [record, setCause]; rfl⟩, id⟩
  · exact ⟨⟨0, s.regs.rx.head, s.regs.tx.head, by simp [record]⟩, rfl, rfl, rfl, rfl, rfl, rfl, ⟨_, by simp [record]; rfl⟩, id⟩

/-- The inversion lemma of every turn that is not HOST's. -/
theorem takeTurn_device {x : Turn} {s t : State} (h : takeTurn x s = .next t) (hx : x ≠ .host) : DeviceEffect s t := by
  cases x with
  | host => exact absurd rfl hx
  | eec =>
    obtain rfl | ⟨_, rfl⟩ := eecStep_next h
    · exact .refl _
    · exact ⟨⟨0, s.regs.rx.head, s.regs.tx.head, by simp⟩, rfl, rfl, rfl, rfl, rfl, rfl, ⟨[], by simp⟩, id⟩
  | rxe => exact rxeStep_device h
  | txe => exact txeStep_device h
  | linkUp =>
    obtain rfl | ⟨_, rfl⟩ := linkUpStep_next h
    · exact .refl _
    · exact .of_agent s _ s.eec s.rxPhase true s.history ⟨[], by simp⟩
  | linkDown =>
    obtain rfl | ⟨_, rfl⟩ := linkDownStep_next h
    · exact .refl _
    · exact .of_agent s _ s.eec s.rxPhase false s.history ⟨[], by simp⟩
  | frame f => exact frameArrives_device h
  | otherCauses v => cases h; exact .of_agent s _ s.eec s.rxPhase s.linkUp s.history ⟨[], by simp⟩

/-! ### EEC over one step of the machine -/

/-- EEC's state after a step: as it was, after an accepted write of EERD, or after its completion step (R202, R203). -/
theorem step_eec {s t : State} (h : step s = .next t) :
    t.eec = s.eec ∨ (s.eec.busy = false ∧ ∃ w, t.eec = eecAfterWrite w s.eec) ∨
    (nextTurn s = .eec ∧ eecEnabled s = true ∧ t.eec =
      { s.eec with data := some (eepromWord s.platform s.eec.addr), done := true, busy := false }) := by
  obtain ⟨ts, d, hp⟩ := popTurn_eq s
  have h := (step_next h).2
  rw [hp] at h
  cases hx : nextTurn s with
  | host =>
    rw [hx] at h
    cases hostStep_effect h with
    | transaction p u hh e =>
      cases e with
      | eerd w hb => exact .inr (.inl ⟨hb, w, rfl⟩)
      | bal r | bah r | len r | head r | tail r => cases r <;> exact .inl rfl
      | _ => exact .inl rfl
    | store p a v hv => exact .inl rfl
    | own hh b d => exact .inl rfl
  | eec =>
    rw [hx] at h
    obtain rfl | ⟨h1, rfl⟩ := eecStep_next h
    · exact .inl rfl
    · exact .inr (.inr ⟨rfl, h1, rfl⟩)
  | linkUp =>
    rw [hx] at h
    obtain rfl | ⟨_, rfl⟩ := linkUpStep_next h <;> exact .inl rfl
  | linkDown =>
    rw [hx] at h
    obtain rfl | ⟨_, rfl⟩ := linkDownStep_next h <;> exact .inl rfl
  | otherCauses v => rw [hx] at h; cases h; exact .inl rfl
  | frame f =>
    rw [hx] at h
    obtain rfl | ⟨_, ⟨r, _, rfl⟩ | ⟨_, _, rfl⟩ | ⟨_, _, rfl⟩⟩ := frameArrives_next h <;> exact .inl rfl
  | rxe =>
    rw [hx] at h
    obtain rfl | ⟨job, _, _, h⟩ := rxeStep_next h
    · exact .inl rfl
    · obtain ⟨_, _, _, rfl⟩ := storePiece_next h
      obtain ⟨c, ph, e⟩ := afterPiece_shape job (pieceStored job _)
      rw [e]; exact .inl rfl
  | txe =>
    rw [hx] at h
    obtain rfl | ⟨_, h⟩ := txeStep_next h
    · exact .inl rfl
    · obtain ⟨_, _, acc, hist, ⟨_, rfl⟩ | ⟨_, _, rfl⟩⟩ := sendDesc_next h
      all_goals
        obtain ⟨c, hc⟩ := advanceTdh_shape _
        rw [hc]
        exact .inl rfl

end Sys2Proof.Machine
end

