-- ==== Sys2Proof/Laws/PerInstr.lean ====
section
/-! SUPPORT. The family `Encoding`: the access word of every instruction passes the four tests of R101, so that it selects a row
of the opcode table. One lemma per constructor. -/

namespace Sys2Proof.Laws.Encoding

def Statement (i : Instr) : Prop := accessWf (encode i).1 = true

theorem rdCtrl : Statement .rdCtrl := show accessWf (readAccess Config.regMap.ctrl) = true by decide
theorem wrCtrl (w : Word) : Statement (.wrCtrl w) :=
  show accessWf (writeAccess Config.regMap.ctrl) = true by decide
theorem rdStatus : Statement .rdStatus := show accessWf (readAccess Config.regMap.status) = true by decide
theorem wrStatus (w : Word) : Statement (.wrStatus w) :=
  show accessWf (writeAccess Config.regMap.status) = true by decide
theorem rdEerd : Statement .rdEerd := show accessWf (readAccess Config.regMap.eerd) = true by decide
theorem wrEerd (w : Word) : Statement (.wrEerd w) :=
  show accessWf (writeAccess Config.regMap.eerd) = true by decide
theorem rdIcr : Statement .rdIcr := show accessWf (readAccess Config.regMap.icr) = true by decide
theorem wrIcr (w : Word) : Statement (.wrIcr w) :=
  show accessWf (writeAccess Config.regMap.icr) = true by decide
theorem rdIms : Statement .rdIms := show accessWf (readAccess Config.regMap.ims) = true by decide
theorem wrIms (w : Word) : Statement (.wrIms w) :=
  show accessWf (writeAccess Config.regMap.ims) = true by decide
theorem rdImc : Statement .rdImc := show accessWf (readAccess Config.regMap.imc) = true by decide
theorem wrImc (w : Word) : Statement (.wrImc w) :=
  show accessWf (writeAccess Config.regMap.imc) = true by decide
theorem rdRctl : Statement .rdRctl := show accessWf (readAccess Config.regMap.rctl) = true by decide
theorem wrRctl (w : Word) : Statement (.wrRctl w) :=
  show accessWf (writeAccess Config.regMap.rctl) = true by decide
theorem rdTctl : Statement .rdTctl := show accessWf (readAccess Config.regMap.tctl) = true by decide
theorem wrTctl (w : Word) : Statement (.wrTctl w) :=
  show accessWf (writeAccess Config.regMap.tctl) = true by decide
theorem rdRdbal : Statement .rdRdbal := show accessWf (readAccess Config.regMap.rdbal) = true by decide
theorem wrRdbal (w : Word) : Statement (.wrRdbal w) :=
  show accessWf (writeAccess Config.regMap.rdbal) = true by decide
theorem rdRdbah : Statement .rdRdbah := show accessWf (readAccess Config.regMap.rdbah) = true by decide
theorem wrRdbah (w : Word) : Statement (.wrRdbah w) :=
  show accessWf (writeAccess Config.regMap.rdbah) = true by decide
theorem rdRdlen : Statement .rdRdlen := show accessWf (readAccess Config.regMap.rdlen) = true by decide
theorem wrRdlen (w : Word) : Statement (.wrRdlen w) :=
  show accessWf (writeAccess Config.regMap.rdlen) = true by decide
theorem rdRdh : Statement .rdRdh := show accessWf (readAccess Config.regMap.rdh) = true by decide
theorem wrRdh (w : Word) : Statement (.wrRdh w) :=
  show accessWf (writeAccess Config.regMap.rdh) = true by decide
theorem rdRdt : Statement .rdRdt := show accessWf (readAccess Config.regMap.rdt) = true by decide
theorem wrRdt (w : Word) : Statement (.wrRdt w) :=
  show accessWf (writeAccess Config.regMap.rdt) = true by decide
theorem rdTdbal : Statement .rdTdbal := show accessWf (readAccess Config.regMap.tdbal) = true by decide
theorem wrTdbal (w : Word) : Statement (.wrTdbal w) :=
  show accessWf (writeAccess Config.regMap.tdbal) = true by decide
theorem rdTdbah : Statement .rdTdbah := show accessWf (readAccess Config.regMap.tdbah) = true by decide
theorem wrTdbah (w : Word) : Statement (.wrTdbah w) :=
  show accessWf (writeAccess Config.regMap.tdbah) = true by decide
theorem rdTdlen : Statement .rdTdlen := show accessWf (readAccess Config.regMap.tdlen) = true by decide
theorem wrTdlen (w : Word) : Statement (.wrTdlen w) :=
  show accessWf (writeAccess Config.regMap.tdlen) = true by decide
theorem rdTdh : Statement .rdTdh := show accessWf (readAccess Config.regMap.tdh) = true by decide
theorem wrTdh (w : Word) : Statement (.wrTdh w) :=
  show accessWf (writeAccess Config.regMap.tdh) = true by decide
theorem rdTdt : Statement .rdTdt := show accessWf (readAccess Config.regMap.tdt) = true by decide
theorem wrTdt (w : Word) : Statement (.wrTdt w) :=
  show accessWf (writeAccess Config.regMap.tdt) = true by decide
theorem rdMta (i : BitVec 7) : Statement (.rdMta i) := by
  show accessWf (readAccess (mtaOff i)) = true
  revert i; decide
theorem wrMta (i : BitVec 7) (w : Word) : Statement (.wrMta i w) := by
  show accessWf (writeAccess (mtaOff i)) = true
  revert i; decide

end Sys2Proof.Laws.Encoding
end

