-- ==== Sys2Proof/Laws/Receive.lean ====
section
/-! SUPPORT. Laws of the receive filter, of a piece's bytes and of HOST's loads. -/

namespace Sys2Proof.Machine

open Config Safety

/-! ### Arrival (R221 to R223) -/

theorem isBroadcast_iff (f : Frame) : isBroadcast f = true ↔ ∀ k < 6, f.bytes.getD k (missingByte k) = 0xFF := by
  simp only [isBroadcast, List.all_eq_true, List.mem_range, beq_iff_eq, dstByte]

theorem filterRegs_eq (g : Regs) :
    filterRegs g = { g with mta := if g.rctl.getLsbD 4 = true then Vector.replicate 128 0 else g.mta } := by
  unfold filterRegs
  rw [rctlMpe_eq]
  split <;> rfl

/-- With MPE = 1 the exact filter sees nothing of the multicast table (R176). -/
theorem filterRegs_mta {g : Regs} (h : g.rctl.getLsbD 4 = true) (m : Vector Word 128) :
    filterRegs { g with mta := m } = filterRegs g := by
  simp only [filterRegs_eq, h, if_true]

/-- The filter is the one R222, R223 and R176 write out. -/
theorem accepts_iff (f : Frame) (g : Regs) : accepts f g = true ↔ FilterAccepts f g := by
  unfold accepts FilterAccepts isUnicast isMulticast
  simp only [Bool.or_eq_true, Bool.and_eq_true, Bool.not_eq_true', ← Bool.not_eq_true, rctlBam_eq, rctlMpe_eq, rctlUpe_eq,
    isBroadcast_iff, dstByte, filterRegs_eq, or_assoc, and_assoc]

theorem frameEnabled_iff (s : State) : frameEnabled s = true ↔ s.linkUp = true ∧ s.rxPhase = .idle := by
  unfold frameEnabled
  rw [Bool.and_eq_true, Bool.not_eq_true', ← Bool.not_eq_true, isStoring_iff, not_not]

/-! ### Pieces (R228, R232) -/

theorem pieceBytes_eq (job : RxJob) : pieceBytes job = (job.data.drop (job.j * job.bsize)).take job.bsize := by
  unfold pieceBytes
  rw [List.take_eq_take_iff]
  simp

theorem crossesThreshold_iff (job : RxJob) (g : Regs) :
    crossesThreshold job g = true ↔ job.thr < job.free0 ∧ ringOwned g.rx ≤ job.thr := by
  unfold crossesThreshold
  rw [Bool.and_eq_true, decide_eq_true_iff, decide_eq_true_iff]

/-! ### HOST's loads (R88) -/

@[simp] theorem hostReadBytes_length (s : State) (a : Addr) (draw n : Nat) : (hostReadBytes s a draw n).length = n := by
  induction n generalizing a draw with
  | zero => rfl
  | succ n ih => simp [hostReadBytes, ih]

/-- Byte k of a load: a draw in an owned receive buffer, memory as it is elsewhere. -/
theorem hostReadBytes_get (s : State) (a : Addr) (draw n k : Nat) (hk : k < n) :
    (hostReadBytes s a draw n)[k]? = some (if inOwnedRxBuffer s (a + BitVec.ofNat 64 k) then drawByte (draw + k)
      else memRead s.mem (a + BitVec.ofNat 64 k).toNat) := by
  induction n generalizing a draw k with
  | zero => omega
  | succ n ih =>
    cases k with
    | zero => simp [hostReadBytes]
    | succ k =>
      simp only [hostReadBytes, List.getElem?_cons_succ]
      rw [ih _ _ _ (by omega), addr_succ, show draw + 1 + k = draw + (k + 1) by omega]

end Sys2Proof.Machine
end

