-- ==== Sys2Proof/Tests/Slice0.lean ====
section
/-! SUPPORT. Tests of the model, one step each, on small states. The expected results are those of spec/95_test_vectors.md and of
the rules' own examples. -/

namespace Sys2Proof.Tests

-- A test decided by the kernel waits for every declaration before it; one at a time, they do not hold a thread each.
set_option Elab.async false

open Sys2Proof.Machine Sys2Proof.Config Sys2Proof.Safety

/-! ### Helpers -/

/-- The platform of spec/95_test_vectors.md: DMA admitted in the descriptor arrays, the buffers and one page. -/
def plat : Platform where
  icrReadClears := false
  eepromPresent := true
  linkPartner   := true
  eeprom        := ((Vector.replicate 256 0).set 1 0x5634).set 2 0xBEEF
  dma           := .ranges [(0x00100000, 256), (0x00101000, 256), (0x00200000, 0x10000), (0x00300000, 0x1000)]

/-- The state after reset on that platform. -/
def s0 : State := State.resetWith resetValues plat

/-- A ring of N = 16 descriptors. -/
def ring16 (base : Word) (h t : Half) : RingRegs := { bal := base, bah := 0, len := 256, head := h, tail := t }

/-- The receive ring set up, RCTL as given, the link up. -/
def rxState (rctl : Word) (h t : Half) : State :=
  { s0 with regs := { s0.regs with rctl := rctl, rx := ring16 0x00100000 h t }, linkUp := true
            mem := [(0x00100000, 0), (0x00100001, 0), (0x00100002, 0x20), (0x00100003, 0), (0x00100004, 0),
                    (0x00100005, 0), (0x00100006, 0), (0x00100007, 0)] }

/-- The transmit ring set up and enabled, the first descriptor as given. -/
def txState (h t : Half) (desc : List Byte) : State :=
  { s0 with regs := { s0.regs with tctl := 0x0A, tx := ring16 0x00101000 h t }
            mem := writeBytes [] 0x00101000 desc }

def nextOf : Result → Option State
  | .next s => some s
  | _ => none

def faultOf : Result → Option Fault
  | .fault f => some f
  | _ => none

/-! ### Decoding (95 section 2.1, R101, R105) and the well-formedness checks -/

theorem test_decode_ctrl : decode 0x00000000 0 = .ok .rdCtrl ∧ decode 0x80000000 7 = .ok (.wrCtrl 7) := by decide
theorem test_decode_status : decode 0x00000008 0 = .ok .rdStatus ∧ decode 0x80000008 7 = .ok (.wrStatus 7) := by decide
theorem test_decode_eerd : decode 0x00000014 0 = .ok .rdEerd ∧ decode 0x80000014 7 = .ok (.wrEerd 7) := by decide
theorem test_decode_icr : decode 0x000000C0 0 = .ok .rdIcr ∧ decode 0x800000C0 7 = .ok (.wrIcr 7) := by decide
theorem test_decode_ims : decode 0x000000D0 0 = .ok .rdIms ∧ decode 0x800000D0 7 = .ok (.wrIms 7) := by decide
theorem test_decode_imc : decode 0x000000D8 0 = .ok .rdImc ∧ decode 0x800000D8 7 = .ok (.wrImc 7) := by decide
theorem test_decode_rctl : decode 0x00000100 0 = .ok .rdRctl ∧ decode 0x80000100 7 = .ok (.wrRctl 7) := by decide
theorem test_decode_tctl : decode 0x00000400 0 = .ok .rdTctl ∧ decode 0x80000400 7 = .ok (.wrTctl 7) := by decide
theorem test_decode_rdbal : decode 0x00002800 0 = .ok .rdRdbal ∧ decode 0x80002800 7 = .ok (.wrRdbal 7) := by decide
theorem test_decode_rdbah : decode 0x00002804 0 = .ok .rdRdbah ∧ decode 0x80002804 7 = .ok (.wrRdbah 7) := by decide
theorem test_decode_rdlen : decode 0x00002808 0 = .ok .rdRdlen ∧ decode 0x80002808 7 = .ok (.wrRdlen 7) := by decide
theorem test_decode_rdh : decode 0x00002810 0 = .ok .rdRdh ∧ decode 0x80002810 7 = .ok (.wrRdh 7) := by decide
theorem test_decode_rdt : decode 0x00002818 0 = .ok .rdRdt ∧ decode 0x80002818 7 = .ok (.wrRdt 7) := by decide
theorem test_decode_tdbal : decode 0x00003800 0 = .ok .rdTdbal ∧ decode 0x80003800 7 = .ok (.wrTdbal 7) := by decide
theorem test_decode_tdbah : decode 0x00003804 0 = .ok .rdTdbah ∧ decode 0x80003804 7 = .ok (.wrTdbah 7) := by decide
theorem test_decode_tdlen : decode 0x00003808 0 = .ok .rdTdlen ∧ decode 0x80003808 7 = .ok (.wrTdlen 7) := by decide
theorem test_decode_tdh : decode 0x00003810 0 = .ok .rdTdh ∧ decode 0x80003810 7 = .ok (.wrTdh 7) := by decide
theorem test_decode_tdt : decode 0x00003818 0 = .ok .rdTdt ∧ decode 0x80003818 7 = .ok (.wrTdt 7) := by decide
theorem test_decode_mta_read : decode 0x00005214 0 = .ok (.rdMta 5) := by decide
theorem test_decode_mta_write : decode 0x800053FC 0 = .ok (.wrMta 127 0) := by decide
theorem test_decode_past_mta : decode 0x00005400 0 = .error .unmapped := by decide
theorem test_decode_unmapped : decode 0x0001FFFC 0 = .error .unmapped := by decide
theorem test_decode_misaligned : decode 0x00000002 0 = .error .misaligned := by decide
theorem test_decode_width_before_alignment : decode 0x600000C1 0 = .error .badWidth := by decide
theorem test_decode_window_first : decode 0xFFFFFFFF 0 = .error .outsideWindow := by decide

/-- One ill-formed access word for each check of WellFormed.lean, which the check refuses. -/
theorem test_ill_formed_refused :
    inWindow 0x00020000 = false ∧ isWordAccess 0x20000000 = false ∧ isAligned 0x00000002 = false ∧
    isMapped 0x00000004 = false ∧ accessWf 0x00005400 = false ∧ accessWf 0x800053FC = true := by decide

theorem test_table_word : decodeTableWord 32 0x80005208 = some (.wrMta 2 0) := by decide
theorem test_table_word_data : decodeTableWord 64 0x0000000780000000 = some (.wrCtrl 7) := by decide

/-! ### Control and status (95 section 2.2, 2.3) -/

theorem test_wr_ctrl_slu : (nextOf (exec (.wrCtrl 0x40) s0)).map (·.regs.ctrl) = some 0x40 := by decide
theorem test_wr_ctrl_other_bit : faultOf (exec (.wrCtrl 0x41) s0) = some (.unmodelledField 0x80000000 0x41) := by decide
theorem test_rd_ctrl :
    (nextOf (exec .rdCtrl { s0 with regs := { s0.regs with ctrl := 0x248 } })).map (·.readData) = some 0x248 := by decide
theorem test_rd_status_up : ∀ d : Word, (statusWord true d).getLsbD 1 = true := by
  intro d
  simp [statusWord, regMap]
theorem test_rd_status_down : ∀ d : Word, (statusWord false d).getLsbD 1 = false := by
  intro d
  simp [statusWord, regMap]
theorem test_wr_status : faultOf (exec (.wrStatus 0) s0) = some (.writeReadOnly 0x80000008) := by decide
theorem test_wr_rctl_union :
    (nextOf (exec (.wrRctl 0x0400803C) s0)).map (·.regs.rctl) = some 0x0400803C := by decide
theorem test_wr_rctl_enable_empty : faultOf (exec (.wrRctl 2) s0) = some (.badEnable 0x80000100 2) := by decide
theorem test_rd_rctl : (nextOf (exec .rdRctl (rxState 0x0400803E 0 16))).map (·.readData) = some 0x0400803E := by decide
theorem test_rctl_reserved :
    rctlLegal 0x300 = false ∧ rctlLegal 0x02000000 = false ∧ rctlLegal 1 = false ∧ rctlLegal 0x02010000 = true := by decide
theorem test_buf_sizes :
    bufSize 0 = 2048 ∧ bufSize 0x00010000 = 1024 ∧ bufSize 0x00020000 = 512 ∧ bufSize 0x00030000 = 256 ∧
    bufSize 0x02010000 = 16384 ∧ bufSize 0x02020000 = 8192 ∧ bufSize 0x02030000 = 4096 := by decide
theorem test_wr_tctl_fields :
    (nextOf (exec (.wrTctl 0x0003F0FA) { s0 with regs := { s0.regs with tx := ring16 0 0 0 } })).map (·.regs.tctl) =
      some 0x0003F0FA := by decide
theorem test_wr_tctl_mbz : faultOf (exec (.wrTctl 0x00400008) s0) = some (.unmodelledField 0x80000400 0x00400008) := by
  decide
theorem test_rd_tctl : (nextOf (exec .rdTctl (txState 0 0 []))).map (·.readData) = some 0x0A := by decide

/-! ### Ring registers (95 section 2.4) -/

theorem test_wr_rdbal : (nextOf (exec (.wrRdbal 0x0011F00F) s0)).map (·.regs.rx.bal) = some 0x0011F000 := by decide
theorem test_wr_rdbal_storing :
    faultOf (exec (.wrRdbal 0x00100000) { s0 with rxPhase := .storing default }) =
      some (.configWhileEnabled 0x80002800 0x00100000) := by decide
theorem test_wr_rdbah : (nextOf (exec (.wrRdbah 5) s0)).map (fun s => (ringBase s.regs.rx)) = some 0x500000000 := by decide
theorem test_wr_rdlen_rounds :
    (nextOf (exec (.wrRdlen 200) s0)).map (fun s => (s.regs.rx.len, ringCount s.regs.rx)) = some (0x80, 8) := by decide
theorem test_wr_rdlen_mbz : faultOf (exec (.wrRdlen 0x00100000) s0) = some (.unmodelledField 0x80002808 0x00100000) := by
  decide
theorem test_wr_rdh_mbz : faultOf (exec (.wrRdh 0x10000) s0) = some (.unmodelledField 0x80002810 0x10000) := by decide
theorem test_wr_rdh_enabled :
    faultOf (exec (.wrRdh 0) (rxState 0x0400803E 0 16)) = some (.configWhileEnabled 0x80002810 0) := by decide
theorem test_wr_rdt_disabled :
    (nextOf (exec (.wrRdt 3) (rxState 0 9 0))).map (fun s => (s.regs.rx.tail, ringOwned s.regs.rx)) = some (3, 10) := by
  decide
theorem test_rd_ring_rx :
    (nextOf (exec .rdRdh (rxState 0 9 3))).map (·.readData) = some 9 ∧
    (nextOf (exec .rdRdt (rxState 0 9 3))).map (·.readData) = some 3 ∧
    (nextOf (exec .rdRdlen (rxState 0 9 3))).map (·.readData) = some 256 ∧
    (nextOf (exec .rdRdbal (rxState 0 9 3))).map (·.readData) = some 0x00100000 ∧
    (nextOf (exec .rdRdbah (rxState 0 9 3))).map (·.readData) = some 0 := by decide
theorem test_wr_tdbal : (nextOf (exec (.wrTdbal 0x00120008) s0)).map (·.regs.tx.bal) = some 0x00120000 := by decide
theorem test_wr_tdbah : (nextOf (exec (.wrTdbah 1) s0)).map (·.regs.tx.bah) = some 1 := by decide
theorem test_wr_tdlen : (nextOf (exec (.wrTdlen 256) s0)).map (fun s => ringCount s.regs.tx) = some 16 := by decide
theorem test_wr_tdh_enabled :
    faultOf (exec (.wrTdh 0) (txState 3 10 [])) = some (.configWhileEnabled 0x80003810 0) := by decide
theorem test_wr_tdt_grows : (nextOf (exec (.wrTdt 12) (txState 3 10 []))).map (fun s => ringOwned s.regs.tx) = some 9 := by
  decide
theorem test_wr_tdt_retracts : faultOf (exec (.wrTdt 5) (txState 3 10 [])) = some (.tailRetract 0x80003818 5) := by decide
theorem test_rd_ring_tx :
    (nextOf (exec .rdTdh (txState 3 10 []))).map (·.readData) = some 3 ∧
    (nextOf (exec .rdTdt (txState 3 10 []))).map (·.readData) = some 10 ∧
    (nextOf (exec .rdTdlen (txState 3 10 []))).map (·.readData) = some 256 ∧
    (nextOf (exec .rdTdbal (txState 3 10 []))).map (·.readData) = some 0x00101000 ∧
    (nextOf (exec .rdTdbah (txState 3 10 []))).map (·.readData) = some 0 := by decide
theorem test_owned_counts :
    ownedCount 16 0 0 = 0 ∧ ownedCount 16 0 16 = 16 ∧ ownedCount 16 0 20 = 16 ∧ ownedCount 16 3 5 = 2 ∧
    ownedCount 16 5 3 = 14 ∧ ownedCount 16 15 0 = 1 ∧ ownedCount 16 16 5 = 0 ∧ ownedCount 0 3 5 = 0 := by decide

/-! ### Interrupt cause and mask, multicast table (95 section 2.5, 2.6) -/

def icrState (icr ims : Word) (clears : Bool) : State :=
  { s0 with regs := { s0.regs with icr := icr, ims := ims }, platform := { plat with icrReadClears := clears } }

theorem test_rd_icr_keeps :
    (nextOf (exec .rdIcr (icrState 0x84 0 false))).map (fun s => (s.readData, s.regs.icr)) = some (0x84, 0x84) := by decide
theorem test_rd_icr_clears :
    (nextOf (exec .rdIcr (icrState 0x84 0 true))).map (fun s => (s.readData, s.regs.icr)) = some (0x84, 0) := by decide
theorem test_wr_icr :
    (nextOf (exec (.wrIcr 0x80) (icrState 0x84 0x80 false))).map (fun s => (s.regs.icr, s.int)) = some (0x04, false) := by
  decide
theorem test_wr_ims_raises_int :
    (nextOf (exec (.wrIms 0x80) (icrState 0x80 0 false))).map (fun s => (s.regs.ims, s.int)) = some (0x80, true) := by decide
theorem test_wr_imc : (nextOf (exec (.wrImc 0x80) (icrState 0 0x84 false))).map (·.regs.ims) = some 0x04 := by decide
theorem test_rd_imc : faultOf (exec .rdImc s0) = some (.readWriteOnly 0x000000D8) := by decide
theorem test_rd_ims_named : ∀ d : Word, imsWord 0x80 d &&& 0xD7 = 0x80 := by
  intro d
  have h : imsWord 0x80 d &&& regMap.icrNamed = 0x80 &&& regMap.icrNamed := by
    ext i hi
    simp only [imsWord, BitVec.getElem_and, BitVec.getElem_or, BitVec.getElem_not]
    cases regMap.icrNamed[i] <;> simp
  exact h
theorem test_int_masked : (icrState 0x04 0x80 false).int = false ∧ (icrState 0x84 0x80 false).int = true := by decide
theorem test_wr_mta :
    (nextOf (exec (.wrMta 127 0xDEADBEEF) s0)).map (fun s => (mtaGet 127 s, mtaGet 126 s)) = some (0xDEADBEEF, 0) := by
  decide
theorem test_rd_mta :
    (nextOf (exec (.rdMta 5) (mtaSet 5 7 s0))).map (·.readData) = some 7 := by decide

/-! ### EEPROM (95 section 2.7) -/

def eeState (busy done : Bool) (addr : Byte) (data : Option Half) : State :=
  { s0 with eec := { busy := busy, done := done, addr := addr, data := data } }

theorem test_wr_eerd_starts :
    (nextOf (exec (.wrEerd 0xFFFF0101) s0)).map (·.eec) =
      some { busy := true, done := false, addr := 1, data := none } := by decide
theorem test_wr_eerd_busy : faultOf (exec (.wrEerd 0x301) (eeState true false 2 none)) = some (.eepromBusy 0x80000014 0x301) := by
  decide
theorem test_eec_completes :
    (nextOf (eecStep (eeState true false 2 none))).map (·.eec) =
      some { busy := false, done := true, addr := 2, data := some 0xBEEF } := by decide
theorem test_rd_eerd_done :
    (nextOf (exec .rdEerd (eeState false true 1 (some 0x5634)))).map (·.readData) = some 0x56340110 := by decide
theorem test_wr_eerd_addr_only :
    (nextOf (exec (.wrEerd 0x500) (eeState false true 2 (some 0xBEEF)))).map (·.eec) =
      some { busy := false, done := true, addr := 5, data := some 0xBEEF } := by decide

/-! ### Receive engine (95 section 2.8) -/

def unicast (n : Nat) (err : Byte) : Frame :=
  { bytes := [0x52, 0x54, 0x00, 0x12, 0x34, 0x56] ++ List.replicate (n - 6) 0xAA, err := err }

def broadcast (n : Nat) : Frame := { bytes := List.replicate n 0xFF, err := 0 }

def phaseOf (r : Result) : Option (Nat × Nat × Nat × Byte) :=
  match r with
  | .next s =>
    match s.rxPhase with
    | .storing j => some (j.k, j.data.length, j.free0, j.err)
    | .idle => none
  | _ => none

def dropOf (r : Result) : Option DropReason :=
  match r with
  | .next s =>
    match s.history.getLast? with
    | some (.drop _ w) => some w
    | _ => none
  | _ => none

theorem test_v1_accept : phaseOf (frameArrives (unicast 64 0) (rxState 0x0400803E 0 16)) = some (1, 60, 16, 0) := by
  decide +kernel
theorem test_v2_accept : phaseOf (frameArrives (unicast 5000 0) (rxState 0x0400803E 14 16)) = some (3, 4996, 16, 0) := by
  decide +kernel
theorem test_v3_runt : dropOf (frameArrives (unicast 63 0) (rxState 0x0400803E 0 16)) = some .runt := by decide +kernel
theorem test_v5_long : dropOf (frameArrives (unicast 1523 0) (rxState 0x0400801E 0 16)) = some .long := by decide +kernel
theorem test_v7_error : dropOf (frameArrives (unicast 64 1) (rxState 0x0400803A 0 16)) = some .error := by decide +kernel
theorem test_v8_stored_error : phaseOf (frameArrives (unicast 64 0x61) (rxState 0x0400803E 0 16)) = some (1, 60, 16, 1) := by
  decide +kernel
theorem test_v9_broadcast : phaseOf (frameArrives (broadcast 64) (rxState 0x00008002 0 16)) = some (1, 64, 16, 0) := by
  decide +kernel
theorem test_v11_disabled : dropOf (frameArrives (unicast 64 0) (rxState 0x0400803C 0 16)) = some .disabled := by
  decide +kernel
theorem test_v12_overrun :
    (nextOf (frameArrives (unicast 3000 0) (rxState 0x0400803E 5 6))).map (fun s => (s.regs.icr, s.regs.rx.head)) =
      some (0x40, 5) := by decide +kernel

/-- R176: with MPE = 1 the exact filter sees no entry of the table; with MPE = 0 it sees what was written. -/
theorem test_filter_ignores_mta :
    let g (rctl : Word) : Regs := { (rxState rctl 0 16).regs with mta := Vector.replicate 128 7 }
    (filterRegs (g 0x12)).mta[5] = 0 ∧ (filterRegs (g 0x02)).mta[5] = 7 := by decide +kernel

/-- A frame of one piece in progress at descriptor 0, with the owned count at its acceptance. -/
def pieceState (t : Half) (free0 : Nat) : State :=
  { rxState 0x0400803E 0 t with
      rxPhase := .storing { data := List.replicate 60 0x11, err := 0, k := 1, j := 0, bsize := 2048, free0 := free0, thr := 8 } }

theorem test_v1_piece :
    (nextOf (rxeStep (pieceState 16 16))).map (fun s =>
      (s.regs.rx.head, s.regs.icr, memRead s.mem 0x0020003B, memLookup s.mem 0x0020003C)) =
      some (1, 0x80, 0x11, none) := by decide +kernel
theorem test_v1_write_back :
    (nextOf (rxeStep (pieceState 16 16))).map (fun s => (readBytes s.mem 0x00100008 2, readBytes s.mem 0x0010000C 4)) =
      some ([0x3C, 0], [3, 0, 0, 0]) := by decide +kernel
theorem test_v14_threshold : (nextOf (rxeStep (pieceState 9 9))).map (·.regs.icr) = some 0x90 := by decide +kernel
/-- R146, R238: RDMTS written during the frame (a quarter, thr 4) leaves this frame's threshold at 8. -/
theorem test_rdmts_latched :
    (nextOf (rxeStep { pieceState 9 9 with regs := { (pieceState 9 9).regs with rctl := 0x0400813E } })).map (·.regs.icr) =
      some 0x90 := by decide +kernel
/-- V14 with the quarter written before the frame: the job holds thr = 4 (R34). -/
theorem test_rdmts_at_accept :
    (nextOf (frameArrives (unicast 64 0) (rxState 0x0400813E 0 9))).map (fun s => match s.rxPhase with
      | .storing j => j.thr
      | .idle => 0) = some 4 := by decide +kernel
theorem test_v18_not_admitted :
    faultOf (rxeStep { pieceState 16 16 with mem := writeBytes [] 0x00100000 [0, 0, 0x50, 0, 0, 0, 0, 0] }) =
      some (.dmaNotAdmitted .rxe 0x00500000 60) := by decide +kernel

/-! ### Transmit engine (95 section 2.9) -/

theorem test_t1 :
    (nextOf (txeStep { txState 0 1 ([0, 0, 0x30, 0, 0, 0, 0, 0, 42, 0, 0, 0x0B, 0, 0, 0, 0]) with
        mem := writeBytes (writeBytes [] 0x00101000 [0, 0, 0x30, 0, 0, 0, 0, 0, 42, 0, 0, 0x0B, 0, 0, 0, 0]) 0x00300000
          (List.replicate 42 0x22) })).map
      (fun s => (s.regs.tx.head, s.regs.icr, memRead s.mem 0x0010100C, s.txAcc)) = some (1, 3, 1, []) := by decide +kernel
theorem test_t3_cleared :
    (nextOf (txeStep (txState 0 1 (List.replicate 16 0)))).map (fun s => (s.regs.tx.head, s.regs.icr)) = some (1, 2) := by
  decide +kernel
theorem test_t5_unmodelled :
    faultOf (txeStep (txState 0 1 [0, 0, 0x30, 0, 0, 0, 0, 0, 42, 0, 0, 4, 0, 0, 0, 0])) = some (.txUnmodelledDesc 0 4) := by
  decide +kernel
theorem test_t7_not_admitted :
    faultOf (txeStep (txState 0 1 [0, 0, 0x50, 0, 0, 0, 0, 0, 10, 0, 0, 1, 0, 0, 0, 0])) =
      some (.dmaNotAdmitted .txe 0x00500000 10) := by decide +kernel
theorem test_t9_unpadded : finishFrame 0x02 0x09 (List.replicate 42 1) = List.replicate 42 1 := by decide +kernel
theorem test_t2_no_padding : finishFrame 0x0A 0x09 (List.replicate 150 1) = List.replicate 150 1 := by decide +kernel
/-- T2, first step: the data is kept, nothing is emitted or written back. -/
theorem test_t2_accumulates :
    (nextOf (txeStep (txState 0 2 [0, 0, 0x30, 0, 0, 0, 0, 0, 100, 0, 0, 0, 0, 0, 0, 0]))).map
      (fun s => (s.txAcc.length, s.regs.tx.head, s.regs.icr, s.history.length)) = some (100, 1, 0, 2) := by decide +kernel
/-- T4: EOP of length 0 with nothing assembled emits no frame; the descriptor read is the only event. -/
theorem test_t4_empty_eop :
    (nextOf (txeStep (txState 0 1 [0, 0, 0, 0, 0, 0, 0, 0, 0, 0, 0, 1, 0, 0, 0, 0]))).map
      (fun s => (s.regs.icr, s.history.length)) = some (2, 1) := by decide +kernel
theorem test_padding : (finishFrame 0x0A 0x01 (List.replicate 42 1)).length = 60 := by decide +kernel

/-! ### Link (R307, R308) -/

theorem test_link_up :
    (nextOf (linkUpStep { s0 with regs := { s0.regs with ctrl := 0x40 } })).map (fun s => (s.linkUp, s.regs.icr)) =
      some (true, 4) := by decide
theorem test_link_up_needs_slu : (nextOf (linkUpStep s0)).map (·.linkUp) = some false := by decide
theorem test_other_causes_spare_named : (nextOf (otherCausesStep 0xFFFFFFFF s0)).map (·.regs.icr) = some 0xFFFFFF28 := by decide

/-! ### Host memory and ownership (95 section 2.10) -/

theorem test_host_write_owned_desc :
    faultOf (hostWrite 0x00100038 (toLe 8 0) (rxState 0x0400803E 0 16)) = some (.hostWriteOwned 0x00100038 8) := by
  decide +kernel
theorem test_host_write_free_desc :
    (nextOf (hostWrite 0x00100050 [7] { rxState 0x0400803E 2 5 with mem := writeBytes [] 0x00100000 (List.replicate 256 0) })).map
      (fun s => memRead s.mem 0x00100050) = some 7 := by decide +kernel
theorem test_host_read_desc_as_it_is :
    (hostRead 0x00100002 1 (rxState 0x0400803E 0 1)).readBytes = [0x20] := by decide +kernel

/-! ### HOST's script and the bring-up (95 section 1, R107, R343, R345) -/

theorem test_s1_regions :
    selectRegion [(0x0000C000, 0x40), (0xFEBC0000, 0x20000)] = some 0xFEBC0000 ∧ selectRegion [(0x00008000, 0x20000)] = none ∧
    selectRegion [(0xFEBC0000, 0x20000), (0xFEC00000, 0x20000)] = some 0xFEBC0000 ∧
    selectRegion [(0xFEBC0000, 0x10000)] = none := by decide
theorem test_s2_halts :
    (nextOf (runOp (.resolve [(0xFEBC0000, 0x8000)]) s0)).map (fun s => (s.host.halted, s.host.prog)) =
      some (some .configurationFault, []) := by decide
theorem test_s3_station_address : stationBytes 0x3412 0x7856 0xBC9A = [0x12, 0x34, 0x56, 0x78, 0x9A, 0xBC] := by decide
theorem test_driver_flags :
    rctlUnion = 0x0400803C ∧ tctlUnion = 0x0A ∧ eepromCommand 2 = 0x201 ∧ regMap.rctlEn ||| rctlUnion = 0x0400803E := by decide
theorem test_step_runs_placed_word :
    (nextOf (step (s0.withFetchWord 64 0x0000004080000000))).map (fun s => (s.regs.ctrl, s.turns, s.host.prog)) =
      some (0x40, [], []) := by decide
theorem test_ack :
    (nextOf (hostStep { icrState 0x84 0x80 false with host := { s0.host with prog := ack 0x80 } })).map
      (fun s => (s.regs.icr, s.int)) = some (0x04, false) := by decide
theorem test_read_binds_variable :
    (nextOf (hostStep { s0 with host := { s0.host with prog := [.readReg 3 regMap.rdlen] }
                                regs := { s0.regs with rx := ring16 0 0 0 } })).map (varGet 3) = some 256 := by decide
theorem test_poll_repeats :
    (nextOf (runOp (.untilTest 0 (.lit 1) (.assign 0 (.lit 1))) s0)).map (·.host.prog) =
      some [.untilBits 0 (.lit 1) (.assign 0 (.lit 1))] := by decide

/-! ### Witnesses: for every statement with hypotheses, a state and operands that meet them -/

/-- HOST's turn next, with one transaction to run. -/
def hostTurn (a w : Word) : State :=
  { s0 with turns := [.host], host := { s0.host with prog := [.transact a w] } }

theorem witness_DecodedTransactionIsItsEncoding :
    decode 0x800053FC 7 = .ok (.wrMta 127 7) ∧ isWriteAccess 0x800053FC = true := by decide
theorem witness_DecodeTestsInOrder :
    (0x00020000 : Word).extractLsb' 17 12 ≠ 0 ∧
    ((0x2001FFFF : Word).extractLsb' 17 12 = 0 ∧ (0x2001FFFF : Word).extractLsb' 29 2 ≠ 0) ∧
    ((0x0001FFFF : Word).extractLsb' 17 12 = 0 ∧ (0x0001FFFF : Word).extractLsb' 29 2 = 0 ∧
      (0x0001FFFF : Word).extractLsb' 0 2 ≠ 0) ∧
    ((0x0001FFFC : Word).extractLsb' 17 12 = 0 ∧ (0x0001FFFC : Word).extractLsb' 29 2 = 0 ∧
      (0x0001FFFC : Word).extractLsb' 0 2 = 0 ∧ lookup ((0x0001FFFC : Word).extractLsb' 0 17) = none) := by decide
theorem witness_StepRunsDecodedTransaction :
    (hostTurn 0x80000000 0x40).fault = none ∧ (hostTurn 0x80000000 0x40).turns = .host :: [] ∧
    (hostTurn 0x80000000 0x40).host.prog = .transact 0x80000000 0x40 :: [] ∧
    decode 0x80000000 0x40 = .ok (.wrCtrl 0x40) := by decide
theorem witness_StepFaultsOnBadAccess :
    ((hostTurn 0x20000 0).fault = none ∧ (hostTurn 0x20000 0).turns = .host :: [] ∧
      (hostTurn 0x20000 0).host.prog = .transact 0x20000 0 :: []) ∧
    decode 0x00020000 0 = .error .outsideWindow ∧ decode 0x20000000 0 = .error .badWidth ∧
    decode 0x00000001 0 = .error .misaligned ∧ decode 0x00005400 0 = .error .unmapped := by decide
theorem witness_PlacedTransactionRunsNext : s0.fault = none ∧ decodeTableWord 32 0x80005208 = some (.wrMta 2 0) := by decide
theorem witness_RecordedFaultIsSticky :
    (hostTurn 0x80000008 0).fault = none ∧ step (hostTurn 0x80000008 0) = .fault (.writeReadOnly 0x80000008) := ⟨rfl, rfl⟩
theorem witness_EerdReadShowsProgress :
    ((eeState false true 1 (some 5)).eec.done = true ∧ (eeState false true 1 (some 5)).eec.data = some 5) ∧
    (eeState true false 1 (some 5)).eec.done = false ∧ (eeState false true 1 none).eec.data = none := by decide
theorem witness_CtrlWriteChangesOnlySlu :
    ((0x40 : Word) ^^^ s0.regs.ctrl) &&& 0xFFFFFFBF = 0 ∧ ((0x80 : Word) ^^^ s0.regs.ctrl) &&& 0xFFFFFFBF ≠ 0 := by decide

/-- RCTL and TCTL legal, turning EN on over a head of N - 1 or N; a reserved encoding; a bit outside the table. -/
theorem witness_RctlWriteChecks :
    ((0x02010002 : Word) &&& 0xF9FC4CC1 = 0 ∧ (0x02010002 : Word) &&& 0x300 ≠ 0x300 ∧
      ¬((0x02010002 : Word).getLsbD 25 = true ∧ (0x02010002 : Word) &&& 0x30000 = 0)) ∧
    ((0x02010002 : Word).getLsbD 1 = true ∧ (rxState 0 15 16).regs.rctl.getLsbD 1 = false) ∧
    (ringCount (rxState 0 15 16).regs.rx ≠ 0 ∧ (rxState 0 15 16).regs.rx.head.toNat < ringCount (rxState 0 15 16).regs.rx) ∧
    ¬(rxState 0 16 16).regs.rx.head.toNat < ringCount (rxState 0 16 16).regs.rx ∧
    (0x300 : Word) &&& 0x300 = 0x300 ∧ ((0x02000000 : Word).getLsbD 25 = true ∧ (0x02000000 : Word) &&& 0x30000 = 0) ∧
    (0x80000000 : Word) &&& 0xF9FC4CC1 ≠ 0 := by decide
theorem witness_TctlWriteChecks :
    (0x003FFFFA : Word) &&& 0xFFC00005 = 0 ∧ (0x00400000 : Word) &&& 0xFFC00005 ≠ 0 ∧
    ((0x003FFFFA : Word).getLsbD 1 = true ∧ s0.regs.tctl.getLsbD 1 = false) ∧ ¬ringCount s0.regs.tx ≠ 0 ∧
    (ringCount (txState 15 16 []).regs.tx ≠ 0 ∧
      (txState 15 16 []).regs.tx.head.toNat < ringCount (txState 15 16 []).regs.tx) := by decide

/-- Every state the four configuration statements tell apart: stopped and idle; enabled; stopped with a frame in progress. -/
theorem witness_BaseWrites :
    (s0.regs.rctl.getLsbD 1 = false ∧ s0.rxPhase = .idle ∧ s0.regs.tctl.getLsbD 1 = false) ∧
    (rxState 2 0 0).regs.rctl.getLsbD 1 = true ∧ { s0 with rxPhase := .storing default }.rxPhase ≠ .idle ∧
    (txState 0 0 []).regs.tctl.getLsbD 1 = true := by decide
theorem witness_LengthWrites :
    (s0.regs.rctl.getLsbD 1 = false ∧ s0.rxPhase = .idle ∧ s0.regs.tctl.getLsbD 1 = false) ∧
    (0x000FFFFF : Word).extractLsb' 20 12 = 0 ∧ (0x00100000 : Word).extractLsb' 20 12 ≠ 0 ∧
    (rxState 2 0 0).regs.rctl.getLsbD 1 = true ∧ (txState 0 0 []).regs.tctl.getLsbD 1 = true := by decide
theorem witness_HeadWrites :
    (s0.regs.rctl.getLsbD 1 = false ∧ s0.rxPhase = .idle ∧ s0.regs.tctl.getLsbD 1 = false) ∧
    (0x0000FFFF : Word).extractLsb' 16 16 = 0 ∧ (0x00010000 : Word).extractLsb' 16 16 ≠ 0 ∧
    (rxState 2 0 0).regs.rctl.getLsbD 1 = true ∧ (txState 0 0 []).regs.tctl.getLsbD 1 = true := by decide

/-- Over N = 16, head 3, tail 5: writing 5 keeps the owned count at 2, writing 4 shrinks it. -/
theorem witness_TailWrites :
    (5 : Word).extractLsb' 16 16 = 0 ∧ (0x10005 : Word).extractLsb' 16 16 ≠ 0 ∧
    (rxState 2 3 5).regs.rctl.getLsbD 1 = true ∧ (txState 3 5 []).regs.tctl.getLsbD 1 = true ∧
    ¬(ownedCount 16 3 ((5 : Word).extractLsb' 0 16).toNat < ownedCount 16 3 5) ∧
    ownedCount 16 3 ((4 : Word).extractLsb' 0 16).toNat < ownedCount 16 3 5 ∧
    ringCount (rxState 2 3 5).regs.rx = 16 ∧ ringCount (txState 3 5 []).regs.tx = 16 := by decide
theorem witness_InterruptRegisterWrites : (icrState 0x80 0 false).regs.icr &&& 0x80 ≠ 0 := by decide
theorem witness_EerdWriteStartsRead :
    ((eeState false false 0 none).eec.busy = false ∧ (0x101 : Word).getLsbD 0 = true ∧ (0x100 : Word).getLsbD 0 = false) ∧
    (eeState true false 0 none).eec.busy = true := by decide
theorem witness_MulticastTableWrites : (rxState 0x12 0 16).regs.rctl.getLsbD 4 = true := by decide
theorem witness_TransactionsLeaveTheAgentsAlone : ∃ t, exec (.wrEerd 0x101) (rxState 2 0 16) = .next t := ⟨_, rfl⟩
theorem witness_ReadsChangeNoRegisterButIcr :
    decode 0x000000C0 0 = .ok .rdIcr ∧ isWriteAccess 0x000000C0 = false ∧
    (∃ t, exec .rdIcr (icrState 0x84 0 false) = .next t) ∧ (icrState 0x84 0 false).platform.icrReadClears = false :=
  ⟨rfl, rfl, ⟨_, rfl⟩, rfl⟩

/-- The link up, asked for by HOST, about to go down, with RXT0 pending. -/
def linkDownTurn : State :=
  { s0 with turns := [.linkDown], linkUp := true, regs := { s0.regs with icr := 0x80 } }

theorem witness_DeviceStepsKeepCauses :
    (∃ t, step linkDownTurn = .next t) ∧ nextTurn linkDownTurn ≠ .host ∧ linkDownTurn.regs.icr.getLsbD 7 = true :=
  ⟨⟨_, rfl⟩, by decide, by decide⟩
theorem witness_DeviceStepsLeaveHostRegisters :
    (∃ t, step linkDownTurn = .next t) ∧ nextTurn linkDownTurn ≠ .host := ⟨⟨_, rfl⟩, by decide⟩

/-- HOST acknowledges RXT0 while LSC is pending too. -/
def ackTurn : State := { hostTurn 0x800000C0 0x80 with regs := { s0.regs with icr := 0x84 } }

theorem witness_HostStepsSetNoCause :
    ∃ t, step ackTurn = .next t ∧ nextTurn ackTurn = .host ∧ t.regs.icr.getLsbD 2 = true := ⟨_, rfl, rfl, by decide⟩
theorem witness_CtrlOtherBitsNeverChange : ∃ t, step (hostTurn 0x80000000 0x40) = .next t := ⟨_, rfl⟩
theorem witness_ParametersFixedHistoryGrows : ∃ t, step (hostTurn 0x80000000 0x40) = .next t := ⟨_, rfl⟩

/-- HOST's turn next, with one store to run. -/
def storeTurn : State :=
  { s0 with turns := [.host], mem := [(5, 1)], host := { s0.host with prog := [.hostWrite 7 [2]] } }

theorem witness_StepKeepsMemoryCanonical : MemCanonical storeTurn ∧ ∃ t, step storeTurn = .next t := ⟨rfl, _, rfl⟩

theorem s0_registersLegal : RegistersLegal s0 := by unfold RegistersLegal; decide
theorem witness_StepKeepsRegistersLegal :
    RegistersLegal (hostTurn 0x80000100 0x0400803C) ∧ ∃ t, step (hostTurn 0x80000100 0x0400803C) = .next t :=
  ⟨s0_registersLegal, _, rfl⟩

/-- A frame of two pieces in progress at descriptor 15 of 16, RXE's turn next. -/
def pieceTurn : State :=
  { rxState 0x0400803E 15 16 with
      turns := [.rxe]
      mem := writeBytes [] 0x001000F0 [0, 0, 0x20, 0, 0, 0, 0, 0]
      rxPhase := .storing { data := List.replicate 2060 0x11, err := 0, k := 2, j := 0, bsize := 2048, free0 := 16, thr := 8 } }

theorem next_of_isSome {r : Result} (h : (nextOf r).isSome = true) : ∃ t, r = .next t := by
  cases r with
  | next t => exact ⟨t, rfl⟩
  | fault f => cases h
  | refused q => cases h
theorem pieceTurn_next : ∃ t, step pieceTurn = .next t := next_of_isSome (by decide +kernel)
theorem pieceTurn_ringsReady : RingsReady pieceTurn := by
  intro r
  cases r <;> decide +kernel
theorem witness_StepKeepsRingsReady : RingsReady pieceTurn ∧ ∃ t, step pieceTurn = .next t :=
  ⟨pieceTurn_ringsReady, pieceTurn_next⟩
theorem witness_StepKeepsReservation :
    RegistersLegal pieceTurn ∧ RingsReady pieceTurn ∧ ReservationHeld pieceTurn ∧ ∃ t, step pieceTurn = .next t := by
  refine ⟨by unfold RegistersLegal; decide +kernel, pieceTurn_ringsReady, ?_, pieceTurn_next⟩
  intro job h
  cases h
  decide +kernel

/-- An EEPROM read in progress, EEC's turn next. -/
def eecTurn : State := { eeState true false 1 none with turns := [.eec] }

theorem witness_StepKeepsEecConsistent : EecConsistent eecTurn ∧ ∃ t, step eecTurn = .next t :=
  ⟨by unfold EecConsistent; decide, _, rfl⟩
theorem witness_QuietMachineStaysQuiet : Quiet s0 := by unfold Quiet; decide
theorem witness_EecCompletionStep : eecTurn.eec.busy = true ∧ eecTurn.platform.eepromPresent = true := by decide
theorem witness_AbsentEepromNeverCompletes :
    ∃ s t : State, s.platform.eepromPresent = false ∧ s.eec.done = false ∧ step s = .next t ∧ s.eec.busy = true :=
  ⟨{ eecTurn with platform := { plat with eepromPresent := false } }, _, rfl, rfl, rfl, rfl⟩
theorem witness_AbsentEepromNeverCompletes_pass : s0.eec.busy = false := rfl

/-- A quiet machine has a next state, and stays quiet: what the run below needs of its tail, whose turns are free. -/
theorem quiet_next {s : State} (h : Quiet s) : ∃ t, step s = .next t ∧ Quiet t := by
  obtain ⟨h1, h2, h3, h4, h5, h6, h7⟩ := h
  obtain ⟨ts, d, hp⟩ := popTurn_eq s
  rw [step_of_no_fault h1, hp]
  cases nextTurn s <;>
    simp [takeTurn, hostStep, h2, eecStep, eecEnabled, h3, rxeStep, h4, txeStep, txeEnabled, h5, linkUpStep, linkUpEnabled,
      h6, linkDownStep, h7, frameArrives, frameEnabled, otherCausesStep, setCause, Quiet, h1]

/-- The run from an EEPROM read in progress with EEC's turn next. -/
def eecRun : Nat → State
  | 0 => eecTurn
  | n + 1 => settle (eecRun n)

theorem eecRun_step (n : Nat) : step (eecRun n) = .next (eecRun (n + 1)) ∧ Quiet (eecRun (n + 1)) := by
  induction n with
  | zero => exact ⟨rfl, by unfold Quiet; decide⟩
  | succ n ih =>
    obtain ⟨t, h1, h2⟩ := quiet_next ih.2
    have h3 : eecRun (n + 1 + 1) = t := by
      change settle (eecRun (n + 1)) = t
      unfold settle
      rw [h1]
    rw [h3]
    exact ⟨h1, h2⟩

theorem quiet_not_enabled {s : State} (h : Quiet s) (t : Turn) : fairEnabled t s = false := by
  obtain ⟨-, h2, h3, h4, h5, h6, h7⟩ := h
  cases t <;> simp [fairEnabled, h2, eecEnabled, h3, rxeEnabled, h4, txeEnabled, h5, linkUpEnabled, h6, h7]

theorem witness_EepromReadEventuallyCompletes :
    IsRun eecRun ∧ WeaklyFair eecRun ∧ (eecRun 0).eec.busy = true ∧ (eecRun 0).platform.eepromPresent = true := by
  refine ⟨fun n => (eecRun_step n).1, fun t n h => ?_, rfl, rfl⟩
  have h1 := h (n + 1) (Nat.le_succ n)
  rw [quiet_not_enabled (eecRun_step n).2 t] at h1
  cases h1

theorem witness_LinkSteps :
    ({ s0 with regs := { s0.regs with ctrl := 0x40 } }.regs.ctrl.getLsbD 6 = true ∧ s0.platform.linkPartner = true ∧
      s0.linkUp = false) ∧
    s0.regs.ctrl.getLsbD 6 = false ∧ linkDownTurn.linkUp = true := by decide

/-- A frame of n equal bytes. -/
def frameOf (n : Nat) (b err : Byte) : Frame := { bytes := List.replicate n b, err := err }

/-- One frame for each drop of R221 and R223 to R225, at the lengths where they meet, and a state in which no frame is sent. -/
theorem witness_FrameDropOrder :
    (s0.linkUp = false ∧ (pieceState 9 9).rxPhase ≠ .idle) ∧
    ((rxState 0 0 16).linkUp = true ∧ (rxState 0 0 16).rxPhase = .idle ∧ ¬(rxState 0 0 16).regs.rctl.getLsbD 1 = true) ∧
    ((rxState 0x8002 0 16).regs.rctl.getLsbD 1 = true ∧ FilterAccepts (frameOf 63 0xFF 0) (rxState 0x8002 0 16).regs ∧
      (frameOf 63 0xFF 0).bytes.length < 64) ∧
    (FilterAccepts (frameOf 16385 0xFF 0) (rxState 0x8002 0 16).regs ∧ 16384 < (frameOf 16385 0xFF 0).bytes.length) ∧
    (FilterAccepts (frameOf 1523 0xFF 0) (rxState 0x8002 0 16).regs ∧ 1522 < (frameOf 1523 0xFF 0).bytes.length ∧
      (frameOf 1523 0xFF 0).bytes.length ≤ 16384 ∧ (rxState 0x8002 0 16).regs.rctl.getLsbD 5 = false) ∧
    (FilterAccepts (frameOf 1522 0xFF 1) (rxState 0x8002 0 16).regs ∧ 64 ≤ (frameOf 1522 0xFF 1).bytes.length ∧
      (frameOf 1522 0xFF 1).bytes.length ≤ 16384 ∧ ¬1522 < (frameOf 1522 0xFF 1).bytes.length ∧
      (frameOf 1522 0xFF 1).err ≠ 0 ∧ (rxState 0x8002 0 16).regs.rctl.getLsbD 2 = false) := by
  simp only [← accepts_iff]
  simp only [frameOf, List.length_replicate]
  decide +kernel

/-- Multicast and unicast frames by their bits of RCTL, MPE and UPE (R222, R223). -/
theorem witness_FilterAccepts :
    FilterAccepts (frameOf 64 0x01 0) (rxState 0x12 0 16).regs ∧ FilterAccepts (frameOf 64 0x02 0) (rxState 0x0A 0 16).regs := by
  simp only [← accepts_iff]
  decide +kernel

/-- R223's filtered drop needs a filter that does not match: whatever `exactFilter` says of this frame, one of the two is met. -/
theorem witness_FrameDropOrder_filtered :
    (rxState 2 0 16).regs.rctl.getLsbD 1 = true ∧
    (¬FilterAccepts (frameOf 64 0 0) (rxState 2 0 16).regs ∨ exactFilter (frameOf 64 0 0) (rxState 2 0 16).regs = true) := by
  refine ⟨by decide, ?_⟩
  rw [← accepts_iff]
  cases h : exactFilter (frameOf 64 0 0) (rxState 2 0 16).regs
  · left
    have e : accepts (frameOf 64 0 0) (rxState 2 0 16).regs = exactFilter (frameOf 64 0 0) (rxState 2 0 16).regs := by
      simp [accepts, filterRegs, rxState, hasAny, regMap]
    rw [e, h]
    decide
  · exact .inr rfl

/-- A broadcast frame of 64 bytes needs one descriptor of 2048: one is owned with RDH = 5 and RDT = 6, none with RDT = 5. -/
theorem witness_FrameAcceptedOrOverrun :
    ((rxState 0x8002 5 6).linkUp = true ∧ (rxState 0x8002 5 6).rxPhase = .idle ∧
      (rxState 0x8002 5 6).regs.rctl.getLsbD 1 = true ∧ FilterAccepts (frameOf 64 0xFF 0) (rxState 0x8002 5 6).regs ∧
      64 ≤ (frameOf 64 0xFF 0).bytes.length ∧ (frameOf 64 0xFF 0).bytes.length ≤ 16384 ∧
      ¬1522 < (frameOf 64 0xFF 0).bytes.length ∧ ¬(frameOf 64 0xFF 0).err ≠ 0) ∧
    (64 + bufSize 0x8002 - 1) / bufSize 0x8002 = 1 ∧
    ownedCount (ringCount (rxState 0x8002 5 6).regs.rx) 5 6 = 1 ∧ ownedCount (ringCount (rxState 0x8002 5 6).regs.rx) 5 5 = 0 ∧
    FilterAccepts (frameOf 64 0xFF 0) (rxState 0x8002 5 5).regs := by
  simp only [← accepts_iff]
  decide +kernel
theorem witness_DriverConfigurationAcceptsEveryFrame :
    (rxState 0x0400803E 15 16).linkUp = true ∧ (rxState 0x0400803E 15 16).rxPhase = .idle ∧
    (rxState 0x0400803E 15 16).regs.rctl = 0x0400803E ∧ (rxState 0x0400803E 15 16).regs.rx.len = 256 ∧
    (rxState 0x0400803E 15 16).regs.rx.tail = 16 ∧ (rxState 0x0400803E 15 16).regs.rx.head.toNat < 16 ∧
    64 ≤ (frameOf 16384 1 1).bytes.length ∧ (frameOf 16384 1 1).bytes.length ≤ 16384 := by
  simp only [frameOf, List.length_replicate]
  decide +kernel

/-- The piece at hand of `pieceTurn`, and of `pieceState`, whose only piece is its last. -/
def pieceJob (k n : Nat) (free0 : Nat) : RxJob :=
  { data := List.replicate n 0x11, err := 0, k := k, j := 0, bsize := 2048, free0 := free0, thr := 8 }

theorem witness_PieceStep :
    (pieceTurn.rxPhase = .storing (pieceJob 2 2060 16) ∧ (pieceJob 2 2060 16).j < (pieceJob 2 2060 16).k ∧
      dmaOK pieceTurn.platform (descAddr pieceTurn.regs.rx 15) 8 = true ∧
      BitVec.ofNat 64 (le (readBytes pieceTurn.mem (descAddr pieceTurn.regs.rx 15) 8)) = 0x00200000 ∧
      dmaOK pieceTurn.platform 0x00200000 2048 = true ∧ dmaOK pieceTurn.platform (descAddr pieceTurn.regs.rx 15 + 8) 8 = true) ∧
    ((pieceState 9 9).rxPhase = .storing (pieceJob 1 60 9) ∧ (pieceJob 1 60 9).j < (pieceJob 1 60 9).k ∧
      dmaOK (pieceState 9 9).platform (descAddr (pieceState 9 9).regs.rx 0) 8 = true ∧
      BitVec.ofNat 64 (le (readBytes (pieceState 9 9).mem (descAddr (pieceState 9 9).regs.rx 0) 8)) = 0x00200000 ∧
      dmaOK (pieceState 9 9).platform 0x00200000 60 = true ∧
      dmaOK (pieceState 9 9).platform (descAddr (pieceState 9 9).regs.rx 0 + 8) 8 = true ∧
      (pieceJob 1 60 9).thr < 9 ∧ ownedCount 16 1 9 ≤ (pieceJob 1 60 9).thr) ∧
    s0.rxPhase = .idle := by
  refine ⟨⟨rfl, by decide, ?_⟩, ⟨rfl, by decide, ?_⟩, rfl⟩ <;> decide +kernel

/-- A byte below the buffer and the descriptor is outside both. -/
theorem witness_PieceStepMemoryFrame :
    pieceTurn.rxPhase = .storing (pieceJob 2 2060 16) ∧ (pieceJob 2 2060 16).j < (pieceJob 2 2060 16).k ∧
    (∃ t, takeTurn .rxe pieceTurn = .next t) ∧
    ((0 : Addr) - BitVec.ofNat 64 (le (readBytes pieceTurn.mem (descAddr pieceTurn.regs.rx 15) 8))).toNat ≥ 2048 ∧
    ((0 : Addr) - (descAddr pieceTurn.regs.rx 15 + 8)).toNat ≥ 8 := by
  exact ⟨rfl, by decide, next_of_isSome (by decide +kernel), by decide +kernel, by decide +kernel⟩

/-- Three platforms: nothing admitted; the descriptor's address half only; that and the buffer, not the write-back half. -/
def admitting (given : List (Addr × Nat)) : Platform := { plat with dma := .ranges given }

theorem witness_PieceStepNotAdmitted :
    (pieceState 16 16).rxPhase = .storing (pieceJob 1 60 16) ∧ (pieceJob 1 60 16).j < (pieceJob 1 60 16).k ∧
    descAddr (pieceState 16 16).regs.rx 0 = 0x00100000 ∧
    dmaOK (admitting []) 0x00100000 8 = false ∧
    (dmaOK (admitting [(0x00100000, 8)]) 0x00100000 8 = true ∧ dmaOK (admitting [(0x00100000, 8)]) 0x00200000 60 = false) ∧
    (dmaOK (admitting [(0x00100000, 8), (0x00200000, 60)]) 0x00100000 8 = true ∧
      dmaOK (admitting [(0x00100000, 8), (0x00200000, 60)]) 0x00200000 60 = true ∧
      dmaOK (admitting [(0x00100000, 8), (0x00200000, 60)]) (0x00100000 + 8) 8 = false) := by
  refine ⟨rfl, by decide, ?_⟩
  decide +kernel
theorem witness_RingArithmetic :
    0 < ringCount (ring16 0 15 0) ∧
    ((0x30000 : Word).getLsbD 25 = false ∧ (0x30000 : Word).extractLsb' 16 2 = 3) ∧
    ((0x02010000 : Word).getLsbD 25 = true ∧ ((0x02010000 : Word).extractLsb' 16 2).toNat = 1) ∧
    ((0x02020000 : Word).getLsbD 25 = true ∧ ((0x02020000 : Word).extractLsb' 16 2).toNat = 2) ∧
    ((0x02030000 : Word).getLsbD 25 = true ∧ ((0x02030000 : Word).extractLsb' 16 2).toNat = 3) ∧
    ((0 : Word).extractLsb' 8 2).toNat = 0 ∧ ((0x100 : Word).extractLsb' 8 2).toNat = 1 ∧
    ((0x200 : Word).extractLsb' 8 2).toNat = 2 := by decide

/-- The last descriptor of the transmit ring owned, cleared or with the bytes given. -/
def txLast (t : Half) (desc : List Byte) : State :=
  { txState 15 t [] with mem := writeBytes [] 0x001010F0 desc }

theorem witness_ClearedDescriptorOnlyAdvancesHead :
    (txLast 0 (List.replicate 16 0)).regs.tctl.getLsbD 1 = true ∧ (15 : Half).toNat < ringCount (txLast 0 []).regs.tx ∧
    0 < ringOwned (txLast 0 []).regs.tx ∧ descAddr (txLast 0 []).regs.tx 15 = 0x001010F0 ∧
    dmaOK plat 0x001010F0 16 = true ∧
    readBytes (txLast 0 (List.replicate 16 0)).mem 0x001010F0 16 = List.replicate 16 0 := by decide +kernel
/-- The guard of R260 failing by each of its four parts, the others held where they can be. -/
theorem witness_ClearedDescriptorOnlyAdvancesHead_pass :
    s0.regs.tctl.getLsbD 1 = false ∧ ringCount s0.regs.tx = 0 ∧
    ringCount (txState 16 0 []).regs.tx ≤ (txState 16 0 []).regs.tx.head.toNat ∧
    ownedCount (ringCount (txState 3 3 []).regs.tx) 3 3 = 0 := by decide

/-- A descriptor for 42 bytes with EOP, IFCS and RS. -/
def eopDesc : List Byte := [0, 0, 0x30, 0, 0, 0, 0, 0, 42, 0, 0, 0x0B, 0xF0, 0, 0, 0]

theorem witness_AdmittedDescriptorStep :
    (txLast 0 eopDesc).regs.tctl.getLsbD 1 = true ∧ (15 : Half).toNat < ringCount (txLast 0 eopDesc).regs.tx ∧
    0 < ringOwned (txLast 0 eopDesc).regs.tx ∧ descAddr (txLast 0 eopDesc).regs.tx 15 = 0x001010F0 ∧
    eopDesc = readBytes (txLast 0 eopDesc).mem 0x001010F0 16 ∧ eopDesc.getD 11 0 &&& 0xF4 = 0 ∧
    dmaOK plat 0x001010F0 16 = true ∧ 0 < le ((eopDesc.drop 8).take 2) ∧
    dmaOK plat (BitVec.ofNat 64 (le (eopDesc.take 8))) 42 = true ∧ (eopDesc.getD 11 0).getLsbD 3 = true ∧
    dmaOK plat (0x001010F0 + 12) 1 = true := by decide +kernel

/-- A descriptor of length n with the CMD byte given: data without EOP (T2), EOP of length 0 (T4), EOP and RS without IFCS (T9), RS
without EOP. -/
def cmdDesc (n cmd : Byte) : List Byte := [0, 0, 0x30, 0, 0, 0, 0, 0, n, 0, 0, cmd, 0, 0, 0, 0]

theorem witness_AdmittedDescriptorStep_forms :
    ∀ d ∈ [cmdDesc 100 0x00, cmdDesc 0 0x01, cmdDesc 42 0x09, cmdDesc 7 0x08],
      d = readBytes (txLast 0 d).mem 0x001010F0 16 ∧ d.getD 11 0 &&& 0xF4 = 0 ∧
      dmaOK plat (BitVec.ofNat 64 (le (d.take 8))) (le ((d.drop 8).take 2)) = true := by decide +kernel

/-- The descriptor not admitted; a CMD bit outside the three; the data not admitted; the write-back not admitted. -/
theorem witness_TransmitFaultOrder :
    ((txLast 0 eopDesc).regs.tctl.getLsbD 1 = true ∧ (15 : Half).toNat < ringCount (txLast 0 eopDesc).regs.tx ∧
      0 < ringOwned (txLast 0 eopDesc).regs.tx ∧ dmaOK (admitting []) 0x001010F0 16 = false) ∧
    (dmaOK (admitting [(0x001010F0, 16)]) 0x001010F0 16 = true ∧ (0x04 : Byte) &&& 0xF4 ≠ 0 ∧
      readBytes (txLast 0 eopDesc).mem 0x001010F0 16 = eopDesc) ∧
    (eopDesc.getD 11 0 &&& 0xF4 = 0 ∧ 0 < le ((eopDesc.drop 8).take 2) ∧
      dmaOK (admitting [(0x001010F0, 16)]) (BitVec.ofNat 64 (le (eopDesc.take 8))) 42 = false) := by decide +kernel
/-- A platform that admits the descriptor's fetch and the data read, and no other access. -/
theorem witness_TransmitFaultOrder_write_back :
    let p : Platform := { plat with dma := .accesses [(0x001010F0, 16), (0x00300000, 42)] }
    dmaOK p 0x001010F0 16 = true ∧ dmaOK p (BitVec.ofNat 64 (le (eopDesc.take 8))) 42 = true ∧
    (eopDesc.getD 11 0).getLsbD 3 = true ∧ dmaOK p (0x001010F0 + 12) 1 = false := by decide +kernel
theorem witness_TransmitMemoryFrame :
    (∃ t, takeTurn .txe (txLast 0 eopDesc) = .next t) ∧ (0x001010FD : Addr) ≠ 0x001010F0 + 12 :=
  ⟨next_of_isSome (by decide +kernel), by decide⟩

/-- The only owned index of `txLast 0`: D(15, 0) = 1. -/
theorem txLast_ownedIndex (d : List Byte) : OwnedIndex (txLast 0 d).regs.tx 15 := ⟨0, (by decide : 0 < ownedCount (ringCount (txLast 0 []).regs.tx) 15 0), (by decide : 15 = (15 + 0) % ringCount (txLast 0 []).regs.tx)⟩

/-- Byte 15 of the last owned descriptor is owned. -/
theorem witness_OwnedBytesRejectHostStores :
    0 < [(0 : Byte)].length ∧ OwnedByte (txLast 0 eopDesc) (0x001010FF + BitVec.ofNat 64 0) :=
  ⟨by decide, .inr (.inl ⟨15, txLast_ownedIndex _, by decide⟩)⟩

/-- The last byte of an owned transmit buffer of 42 bytes, and the first byte of an owned receive buffer, are owned. -/
theorem witness_OwnedBytesRejectHostStores_buffers :
    OwnedByte (txLast 0 eopDesc) 0x00300029 ∧ OwnedByte (rxState 0x0400803E 0 1) 0x00200000 :=
  ⟨.inr (.inr (.inr ⟨15, txLast_ownedIndex _, by decide +kernel⟩)),
    .inr (.inr (.inl ⟨0, ⟨0, by decide, by decide⟩, by decide +kernel⟩))⟩

/-- The byte after the ring is not owned. -/
theorem witness_HostStoreWritesItsBytes :
    [(7 : Byte)].length ≤ 2 ^ 64 ∧ ∀ k < [(7 : Byte)].length,
      ¬OwnedByte (txLast 0 eopDesc) (0x00101100 + BitVec.ofNat 64 k) := by
  refine ⟨by decide, fun k hk => ?_⟩
  have hk : k = 0 := by simpa using hk
  subst hk
  have rx : ∀ i, ¬OwnedIndex (txLast 0 eopDesc).regs.rx i := by
    rintro i ⟨j, hj, _⟩
    exact absurd hj (by rw [show ownedCount _ _ _ = 0 from rfl]; omega)
  have tx : ∀ i, OwnedIndex (txLast 0 eopDesc).regs.tx i → i = 15 := by
    rintro i ⟨j, hj, rfl⟩
    have hj : j < 1 := hj
    obtain rfl : j = 0 := by omega
    decide
  rintro (⟨i, h, _⟩ | ⟨i, h, h2⟩ | ⟨i, h, _⟩ | ⟨i, h, h2⟩)
  · exact rx i h
  · rw [tx i h] at h2; revert h2; decide
  · exact rx i h
  · rw [tx i h] at h2; revert h2; decide +kernel

/-- A byte of the owned descriptor outside the buffer, and the first byte of the buffer. -/
theorem witness_HostLoadReturnsMemory :
    0 < 1 ∧ ¬OwnedRxBufferByte (rxState 0x0400803E 0 1) (0x00100002 + BitVec.ofNat 64 0) ∧
    OwnedRxBufferByte (rxState 0x0400803E 0 1) (0x00200000 + BitVec.ofNat 64 0) := by
  refine ⟨by decide, ?_, 0, ⟨0, by decide, by decide⟩, by decide +kernel⟩
  rintro ⟨i, ⟨j, hj, rfl⟩, h⟩
  have hj : j < 1 := hj
  obtain rfl : j = 0 := by omega
  revert h
  decide +kernel

end Sys2Proof.Tests
end

section
/-! PROOFS. The scope family: a step runs the decoded transaction (R14, R140); no step changes a parameter, goes on from a
recorded fault or takes an event out of the history (R10, R54, R55). -/

namespace Sys2Proof.Machine

/-! ### HOST's turn, listed next, runs the head of HOST's program (R14, R140) -/

theorem nextTurn_cons {s : State} {x : Turn} {ts : List Turn} (h : s.turns = x :: ts) : nextTurn s = x := by
  simp [nextTurn, h]

theorem popTurn_cons {s : State} {x : Turn} {ts : List Turn} (h : s.turns = x :: ts) : popTurn s = { s with turns := ts } := by
  simp [popTurn, h]

theorem hostStep_cons {s : State} {op : HostOp} {rest : List HostOp} (h : s.host.prog = op :: rest) :
    hostStep s = runOp op (setProg rest s) := by
  simp [hostStep, h]

theorem hostTransact_of_decode {a w : Word} {i : Instr} (h : decode a w = .ok i) (s : State) : hostTransact a w s = exec i s := by
  simp [hostTransact, h]

/-- A step of HOST is the operation at the head of its program, run on the state with the turn and the operation taken off. -/
theorem step_host_cons {s : State} {op : HostOp} {rest : List HostOp} {ts : List Turn} (hf : s.fault = none)
    (ht : s.turns = .host :: ts) (hp : s.host.prog = op :: rest) :
    step s = runOp op (setProg rest { s with turns := ts }) := by
  rw [step_of_no_fault hf, nextTurn_cons ht, popTurn_cons ht]
  exact hostStep_cons (s := { s with turns := ts }) hp

/-- Settles O6: HOST's turn takes the transaction off its program, and the decoder hands it to `exec`. -/
theorem stepRunsDecodedTransaction : Obligations.StepRunsDecodedTransaction := by
  intro s a w i rest ts hf ht hp hd
  calc step s = hostTransact a w (setProg rest { s with turns := ts }) := step_host_cons hf ht hp
    _ = exec i (setProg rest { s with turns := ts }) := hostTransact_of_decode hd _

/-! ### What every turn keeps, HOST's and the device agents' alike (R10, R54, R55) -/

/-- `t` comes after `s` in one execution: the same parameters (R10), the same fault record (R54), and a history that goes on
from that of `s` (R55). -/
structure Extends (s t : State) : Prop where
  platform : t.platform = s.platform
  fault : t.fault = s.fault
  history : ∃ es, t.history = s.history ++ es

theorem DeviceEffect.toExtends {s t : State} (h : DeviceEffect s t) : Extends s t := ⟨h.platform, h.fault, h.history⟩

/-- A register transaction appends its own event to the history (R140) and touches neither parameters nor fault record. -/
theorem Effect.toExtends {s t : State} (h : Effect s t) : Extends s t := by
  cases h with
  | bal r | bah r | len r | head r | tail r => cases r <;> exact ⟨rfl, rfl, _, rfl⟩
  | _ => exact ⟨rfl, rfl, _, rfl⟩

/-- HOST's loads and stores, and its own steps, leave the history as it is (R55); its transactions extend it. -/
theorem HostEffect.toExtends {s t : State} (h : HostEffect s t) : Extends s t := by
  cases h with
  | transaction p u hst e =>
    obtain ⟨hp, hf, hh⟩ := e.toExtends
    exact ⟨hp, hf, hh⟩
  | store p a v _ => exact ⟨rfl, rfl, [], by simp⟩
  | own hst b d => exact ⟨rfl, rfl, [], by simp⟩

theorem takeTurn_extends {x : Turn} {s t : State} (h : takeTurn x s = .next t) : Extends s t := by
  by_cases hx : x = .host
  · subst hx
    exact (hostStep_effect h).toExtends
  · exact (takeTurn_device h hx).toExtends

theorem step_extends {s t : State} (h : step s = .next t) : Extends s t := by
  obtain ⟨hp, hf, hh⟩ := takeTurn_extends (step_next h).2
  exact ⟨by simpa using hp, by simpa using hf, by simpa using hh⟩

/-- Settles O33: a step starts without a recorded fault (`step_next`), and every agent's turn extends the state it finds. -/
theorem parametersFixedHistoryGrows : Obligations.ParametersFixedHistoryGrows := by
  intro s t h
  have hf := (step_next h).1
  obtain ⟨hp, hft, hh⟩ := step_extends h
  exact ⟨hp, hf, hft.trans hf, hh⟩

end Sys2Proof.Machine
end

section
/-! PROOFS. The state family: what register transactions leave alone (R20, R39, R77, R140), the invariants every step keeps (R24,
R32 to R37, R50, R202, R203), HOST's loads and stores against the owned bytes (R52, R88, R89), the fault record (R54, R311). -/

namespace Sys2Proof.Machine

open Config Safety

/-! ### One step, as what its turn does to the state with the turn taken off -/

/-- The inversion lemma of `step`: HOST's turn has one of HOST's effects, every other turn is a device agent's. -/
theorem step_effect {s t : State} (h : step s = .next t) :
    (nextTurn s = .host ∧ HostEffect (popTurn s) t) ∨ (nextTurn s ≠ .host ∧ DeviceEffect (popTurn s) t) := by
  have ht := (step_next h).2
  by_cases hx : nextTurn s = .host
  · rw [hx] at ht
    exact .inl ⟨hx, hostStep_effect ht⟩
  · exact .inr ⟨hx, takeTurn_device ht hx⟩

/-! ### What a register transaction leaves alone (R20, R55, R77, R140) -/

/-- What every register transaction leaves: memory, engines, link, HOST, schedule, parameters and fault record as they were, and
its own event at the end of the history. -/
structure TransactionFrame (s t : State) : Prop where
  rxPhase : t.rxPhase = s.rxPhase
  txAcc : t.txAcc = s.txAcc
  linkUp : t.linkUp = s.linkUp
  mem : t.mem = s.mem
  fault : t.fault = s.fault
  host : t.host = s.host
  readBytes : t.readBytes = s.readBytes
  turns : t.turns = s.turns
  platform : t.platform = s.platform
  history : ∃ off dir v, t.history = s.history ++ [.transaction off dir v]

theorem Effect.frame {s t : State} (h : Effect s t) : TransactionFrame s t := by
  cases h with
  | bal r | bah r | len r | head r | tail r => cases r <;> exact ⟨rfl, rfl, rfl, rfl, rfl, rfl, rfl, rfl, rfl, _, _, _, rfl⟩
  | _ => exact ⟨rfl, rfl, rfl, rfl, rfl, rfl, rfl, rfl, rfl, _, _, _, rfl⟩

/-- A next state, if the result is one, has the EEC of `s`. -/
def KeepsEec (s : State) (r : Result) : Prop := ∀ t, r = .next t → t.eec = s.eec

theorem KeepsEec.raise {s : State} {f : Fault} : KeepsEec s (raise f) := fun _ h => absurd h (raise_ne_next _ _)

theorem KeepsEec.next {s u : State} (h : u.eec = s.eec) : KeepsEec s (.next u) := by
  rintro _ ⟨⟩
  exact h

theorem KeepsEec.ite {s : State} {c : Prop} [Decidable c] {x y : Result} (hx : KeepsEec s x) (hy : KeepsEec s y) :
    KeepsEec s (if c then x else y) := by
  split
  · exact hx
  · exact hy

theorem execRdEerd_keepsEec (s : State) : KeepsEec s (execRdEerd s) := by
  unfold execRdEerd
  split <;> exact .next rfl

/-- Only a write of EERD touches EEC: along its checks, every other row raises a fault or writes another part of the state. -/
theorem exec_keepsEec {i : Instr} (hi : ∀ w, i ≠ .wrEerd w) (s : State) : KeepsEec s (exec i s) := by
  cases i with
  | wrEerd w => exact absurd rfl (hi w)
  | rdEerd => exact execRdEerd_keepsEec s
  | wrStatus | rdImc => exact .raise
  | wrCtrl => exact .ite .raise (.next rfl)
  | wrRctl | wrTctl | wrRdt | wrTdt => exact .ite .raise (.ite .raise (.next rfl))
  | wrRdbal | wrRdbah | wrTdbal | wrTdbah => exact .ite (.next rfl) .raise
  | wrRdlen | wrRdh | wrTdlen | wrTdh => exact .ite (.ite .raise (.next rfl)) .raise
  | _ => exact .next rfl

/-- Settles O26: the frame of the inversion lemma of `exec`, and EEC kept by every row but the write of EERD. -/
theorem transactionsLeaveTheAgentsAlone : Obligations.TransactionsLeaveTheAgentsAlone := by
  intro i s t h
  have fr := (exec_effect h).frame
  exact ⟨fr.rxPhase, fr.txAcc, fr.linkUp, fr.mem, fun _ => by rw [fr.mem], fr.fault, fr.host, fr.readBytes, fr.turns,
    fr.platform, fun hi => exec_keepsEec hi s t h, fr.history⟩

/-! ### Host memory stays canonical (R50, R85, R89) -/

/-- Of HOST's effects only a store changes memory, and it writes addresses of the 64-bit space. -/
theorem HostEffect.mem_wf {s t : State} (h : HostEffect s t) (hm : Memory.wf s.mem = true) : Memory.wf t.mem = true := by
  cases h with
  | transaction p u hst e =>
    have hu : u.mem = s.mem := e.frame.mem
    exact hu ▸ hm
  | store p a v _ => exact writeBytes_wf s.mem a v hm
  | own hst b d => exact hm

/-- Settles O34: HOST's stores and the engines' DMA writes go through `writeBytes`, which keeps the canonical form. -/
theorem stepKeepsMemoryCanonical : Obligations.StepKeepsMemoryCanonical := by
  intro s t hm h
  have hp : Memory.wf (popTurn s).mem = true := by rw [popTurn_mem]; exact hm
  obtain ⟨_, e⟩ | ⟨_, e⟩ := step_effect h
  · exact e.mem_wf hp
  · exact e.mem hp

/-! ### The registers stay legal (R32 to R37) -/

/-- Legality is about the register file alone, which taking a turn off the schedule leaves. -/
theorem registersLegal_popTurn {s : State} (hs : RegistersLegal s) : RegistersLegal (popTurn s) := by
  unfold RegistersLegal
  rw [popTurn_regs]
  exact hs

/-- A transaction writes the bases and lengths masked, RCTL and TCTL checked, and no other register with an illegal value. -/
theorem Effect.registersLegal {s t : State} (h : Effect s t) (hs : RegistersLegal s) : RegistersLegal t := by
  obtain ⟨hrb, htb, hrl, htl, hrc, htc⟩ := hs
  cases h with
  | rctl w hw => exact ⟨hrb, htb, hrl, htl, hw, htc⟩
  | tctl w hw => exact ⟨hrb, htb, hrl, htl, hrc, hw⟩
  | bal r off w =>
    cases r with
    | rx => exact ⟨and_and_not w _, htb, hrl, htl, hrc, htc⟩
    | tx => exact ⟨hrb, and_and_not w _, hrl, htl, hrc, htc⟩
  | len r off w =>
    cases r with
    | rx => exact ⟨hrb, htb, and_and_not w _, htl, hrc, htc⟩
    | tx => exact ⟨hrb, htb, hrl, and_and_not w _, hrc, htc⟩
  | bah r | head r | tail r => cases r <;> exact ⟨hrb, htb, hrl, htl, hrc, htc⟩
  | _ => exact ⟨hrb, htb, hrl, htl, hrc, htc⟩

theorem HostEffect.registersLegal {s t : State} (h : HostEffect s t) (hs : RegistersLegal s) : RegistersLegal t := by
  cases h with
  | transaction p u hst e => exact e.registersLegal hs
  | store | own => exact hs

/-- The heads and the causes, all a device agent writes, are no part of legality. -/
theorem DeviceEffect.registersLegal {s t : State} (h : DeviceEffect s t) (hs : RegistersLegal s) : RegistersLegal t := by
  obtain ⟨c, hr, ht, e⟩ := h.regs
  unfold RegistersLegal
  rw [e]
  exact hs

/-- Settles O35: the checks and masks of HOST's writes, and the device agents' frame. -/
theorem stepKeepsRegistersLegal : Obligations.StepKeepsRegistersLegal := by
  intro s t hs h
  obtain ⟨_, e⟩ | ⟨_, e⟩ := step_effect h
  · exact e.registersLegal (registersLegal_popTurn hs)
  · exact e.registersLegal (registersLegal_popTurn hs)

/-! ### Registers that only HOST writes, and bits of CTRL that nobody does (R24, R39, R141, R142, R357) -/

/-- Settles O31: a device agent's turn moves heads and sets causes, and of HOST's own fields it writes none. -/
theorem deviceStepsLeaveHostRegisters : Obligations.DeviceStepsLeaveHostRegisters := by
  intro s t h hx
  obtain ⟨hh, _⟩ | ⟨_, e⟩ := step_effect h
  · exact absurd hh hx
  · obtain ⟨c, hr, ht, hregs⟩ := e.regs
    rw [popTurn_regs] at hregs
    rw [hregs]
    exact ⟨rfl, rfl, rfl, rfl, rfl, rfl, rfl, by simpa using e.host, by simpa using e.readData, by simpa using e.readBytes⟩

/-- Words that differ at most outside a mask agree under it. -/
theorem and_eq_and_of_hasAny_xor {v w m : Word} (h : hasAny (v ^^^ w) m = false) : v &&& m = w &&& m := by
  rw [← BitVec.xor_eq_zero_iff]
  refine Eq.trans ?_ (hasAny_eq_false.1 h)
  ext i hi
  simp [Bool.and_xor_distrib_right]

theorem Effect.ctrl_other_bits {s t : State} (h : Effect s t) :
    t.regs.ctrl &&& ~~~regMap.ctrlSlu = s.regs.ctrl &&& ~~~regMap.ctrlSlu := by
  cases h with
  | ctrl w hw => exact and_eq_and_of_hasAny_xor hw
  | bal r | bah r | len r | head r | tail r => cases r <;> rfl
  | _ => rfl

/-- Settles O32: WR CTRL faults on any other change, and nothing but WR CTRL writes CTRL. -/
theorem ctrlOtherBitsNeverChange : Obligations.CtrlOtherBitsNeverChange := by
  intro s t h
  rw [show (0xFFFFFFBF : Word) = ~~~regMap.ctrlSlu by decide, ← popTurn_regs s]
  obtain ⟨_, e⟩ | ⟨_, e⟩ := step_effect h
  · cases e with
    | transaction p u hst e => exact e.ctrl_other_bits
    | store | own => rfl
  · obtain ⟨c, hr, ht, hregs⟩ := e.regs
    rw [hregs]

/-! ### EEC (R26, R202, R203) -/

/-- A write of EERD with START clears DONE as it sets busy; without START it leaves both and the data. -/
theorem eecAfterWrite_consistent {w : Word} {e : Eec} (hb : e.busy = false) (hd : e.done = true → e.data ≠ none) :
    ((eecAfterWrite w e).busy = true → (eecAfterWrite w e).done = false) ∧
    ((eecAfterWrite w e).done = true → (eecAfterWrite w e).data ≠ none) := by
  unfold eecAfterWrite
  split
  · exact ⟨fun _ => rfl, by simp⟩
  · exact ⟨by simp [hb], hd⟩

/-- Settles O38: EEC is as it was, or written while no read is in progress, or completes with its data. -/
theorem stepKeepsEecConsistent : Obligations.StepKeepsEecConsistent := by
  intro s t hs h
  unfold EecConsistent
  obtain e | ⟨hb, w, e⟩ | ⟨_, _, e⟩ := step_eec h <;> rw [e]
  · exact hs
  · exact eecAfterWrite_consistent hb hs.2
  · exact ⟨by simp, by simp⟩

/-! ### The owned bytes are R52's (R52, R110, R113) -/

/-- Something holds of an owned index of the model's list exactly if it holds of one of R52's set. -/
theorem ownedIndices_any_iff (x : RingRegs) (p : Nat → Bool) :
    (ownedIndices x).any p = true ↔ ∃ i, OwnedIndex x i ∧ p i = true := by
  rw [ownedIndices_any]
  constructor
  · rintro ⟨j, hj, hp⟩
    exact ⟨_, ⟨j, hj, rfl⟩, hp⟩
  · rintro ⟨_, ⟨j, hj, rfl⟩, hp⟩
    exact ⟨j, hj, hp⟩

theorem inOwnedDesc_iff (x : RingRegs) (a : Addr) : inOwnedDesc x a = true ↔ OwnedDescByte x a := by
  simp only [inOwnedDesc, OwnedDescByte, ownedIndices_any_iff, inRange_iff, regMap_descSize]

theorem inOwnedRxBuffer_iff (s : State) (a : Addr) : inOwnedRxBuffer s a = true ↔ OwnedRxBufferByte s a := by
  simp only [inOwnedRxBuffer, OwnedRxBufferByte, ownedIndices_any_iff, inRange_iff, descBuffer_eq]

theorem inOwnedTxBuffer_iff (s : State) (a : Addr) : inOwnedTxBuffer s a = true ↔ OwnedTxBufferByte s a := by
  simp only [inOwnedTxBuffer, OwnedTxBufferByte, ownedIndices_any_iff, inRange_iff, descBuffer_eq, descLength_eq]

theorem hostOwnedByDevice_iff (s : State) (a : Addr) : hostOwnedByDevice s a = true ↔ OwnedByte s a := by
  simp only [hostOwnedByDevice, OwnedByte, Bool.or_eq_true, inOwnedDesc_iff, inOwnedRxBuffer_iff, inOwnedTxBuffer_iff, or_assoc]

/-! ### HOST's stores and loads (R88, R89) -/

theorem hostWrite_of_owned {s : State} {a : Addr} {v : List Byte} (h : hostOwnedAny s a v.length = true) :
    hostWrite a v s = .fault (.hostWriteOwned a v.length) := if_pos h

theorem hostWrite_of_not_owned {s : State} {a : Addr} {v : List Byte} (h : hostOwnedAny s a v.length = false) :
    hostWrite a v s = .next { s with mem := writeBytes s.mem a v } := if_neg (by simp [h])

/-- Settles O57: the model's predicate is R52's, and a store tests it on every byte. -/
theorem ownedBytesRejectHostStores : Obligations.OwnedBytesRejectHostStores := by
  refine ⟨fun s x => ⟨hostOwnedByDevice_iff s x, inOwnedRxBuffer_iff s x⟩, fun s a v k hk ho => ?_⟩
  exact hostWrite_of_owned ((hostOwnedAny_iff s a v.length).2 ⟨k, hk, (hostOwnedByDevice_iff s _).2 ho⟩)

/-- Settles O58: with no byte owned the store is `writeBytes`, which reads back and leaves the bytes at a distance. -/
theorem hostStoreWritesItsBytes : Obligations.HostStoreWritesItsBytes := by
  intro s a v hlen hfree
  have hown : hostOwnedAny s a v.length = false := by
    rw [← Bool.not_eq_true, hostOwnedAny_iff]
    rintro ⟨k, hk, ho⟩
    exact hfree k hk ((hostOwnedByDevice_iff s _).1 ho)
  exact ⟨_, hostWrite_of_not_owned hown, readBytes_writeBytes s.mem a v hlen,
    fun x hx => memRead_writeBytes_other s.mem a v x (ne_of_distance hx), rfl⟩

/-- Settles O59: byte by byte, a draw in an owned receive buffer and memory's byte elsewhere. -/
theorem hostLoadReturnsMemory : Obligations.HostLoadReturnsMemory := by
  intro s a n
  refine ⟨rfl, hostReadBytes_length s a s.draws n, fun k hk => ?_⟩
  have hget := hostReadBytes_get s a s.draws n k hk
  rw [← inOwnedRxBuffer_iff]
  constructor
  · intro ho
    rwa [if_neg ho] at hget
  · intro ho
    rwa [if_pos ho] at hget

/-! ### The fault record (R54, R311) -/

theorem step_of_fault {s : State} {f : Fault} (h : s.fault = some f) : step s = .fault f := by
  simp [step, h, raise]

theorem settle_of_step_fault {s : State} {f : Fault} (h : step s = .fault f) : settle s = s.recordFault f := by
  simp [settle, h]

theorem recordFault_of_none {s : State} (h : s.fault = none) (f : Fault) : s.recordFault f = { s with fault := some f } := by
  simp [State.recordFault, h]

theorem recordFault_of_some {s : State} {g : Fault} (h : s.fault = some g) (f : Fault) : s.recordFault f = s := by
  simp [State.recordFault, h]

/-- Settles O9: settling records the first fault, after which a step answers it again and settling changes nothing. -/
theorem recordedFaultIsSticky : Obligations.RecordedFaultIsSticky := by
  intro s f hf h
  have hset : settle s = { s with fault := some f } := (settle_of_step_fault h).trans (recordFault_of_none hf f)
  have hrec : (settle s).fault = some f := by rw [hset]
  have hstep : step (settle s) = .fault f := step_of_fault hrec
  exact ⟨hset, hstep, (settle_of_step_fault hstep).trans (recordFault_of_some hrec f)⟩

end Sys2Proof.Machine
end

section
/-! PROOFS. The memory family: register reads change no register but ICR (R77, R169); an access of RXE or TXE that DmaOK refuses
stops the step with F12, in the order of R312 (R84, R232, R262, R263, R268). -/

namespace Sys2Proof.Machine

open Config

/-! ### Register reads (R77, R169) -/

/-- A read access word decodes to the read row of a register. -/
theorem decode_of_read {a w : Word} {i : Instr} (hd : decode a w = .ok i) (ha : isWriteAccess a = false) :
    ∃ r, i = readOf r := by
  simp only [decode, ha, Bool.false_eq_true, if_false] at hd
  split_ifs at hd
  split at hd
  · cases hd
  · rename_i r _
    cases hd
    exact ⟨r, rfl⟩

theorem readOf_ne_wrEerd (r : Reg) (w : Word) : readOf r ≠ .wrEerd w := by cases r <;> nofun

theorem execRdEerd_regs {s t : State} (h : execRdEerd s = .next t) : t.regs = s.regs := by
  unfold execRdEerd at h
  split at h <;> cases h <;> rfl

/-- The register file after a read: ICR is 0 after a read of ICR under ICR_READ_CLEARS, and all else is as it was. -/
theorem exec_readOf_regs {r : Reg} {s t : State} (h : exec (readOf r) s = .next t) :
    t.regs = { s.regs with icr := if r = .icr ∧ s.platform.icrReadClears = true then 0 else s.regs.icr } := by
  cases r with
  | icr => cases h; simp
  | imc => exact absurd h (raise_ne_next _ t)
  | eerd => exact execRdEerd_regs h
  | _ => cases h; rfl

/-- Settles O27: the read rows leave EEC, and of the register file they write ICR alone, at the read of ICR where the parameter
ICR_READ_CLEARS is true. -/
theorem readsChangeNoRegisterButIcr : Obligations.ReadsChangeNoRegisterButIcr := by
  intro a w i s t hd ha h
  obtain ⟨r, rfl⟩ := decode_of_read hd ha
  have hregs := exec_readOf_regs h
  refine ⟨exec_keepsEec (readOf_ne_wrEerd r) s t h, by rw [hregs], fun hkeep => ?_⟩
  have hno : ¬(r = .icr ∧ s.platform.icrReadClears = true) := by
    rintro ⟨rfl, hc⟩
    obtain hne | hf := hkeep
    · exact hne rfl
    · rw [hf] at hc
      cases hc
  rw [hregs, if_neg hno]

/-! ### An access that DmaOK refuses (R84) -/

theorem dmaRead_of_refused (g : DmaAgent) {a : Addr} {n : Nat} {s : State} (h : dmaOK s.platform a n = false) :
    dmaRead g a n s = .error (.dmaNotAdmitted g a n) := if_neg (by simp [h])

theorem dmaWrite_of_refused (g : DmaAgent) {a : Addr} {v : List Byte} {s : State} (h : dmaOK s.platform a v.length = false) :
    dmaWrite g a v s = .error (.dmaNotAdmitted g a v.length) := if_neg (by simp [h])

/-! ### RXE's three accesses (R232, R312) -/

/-- A turn of RXE with a piece left stores that piece (R232). -/
theorem rxeStep_of_storing {s : State} {job : RxJob} (hp : s.rxPhase = .storing job) (hj : job.j < job.k) :
    rxeStep s = storePiece job s := by
  unfold rxeStep
  rw [hp]
  exact if_pos hj

theorem storePiece_read_refused {job : RxJob} {s : State} (h : dmaOK s.platform (rxDesc s) 8 = false) :
    storePiece job s = .fault (.dmaNotAdmitted .rxe (rxDesc s) 8) := by
  unfold storePiece
  rw [fieldAddr_descBuf, descBuf_len, dmaRead_of_refused .rxe h]
  rfl

theorem storePiece_data_refused {job : RxJob} {s : State} (h1 : dmaOK s.platform (rxDesc s) 8 = true)
    (h2 : dmaOK s.platform (rxBuffer s) (pieceBytes job).length = false) :
    storePiece job s = .fault (.dmaNotAdmitted .rxe (rxBuffer s) (pieceBytes job).length) := by
  unfold storePiece
  rw [fieldAddr_descBuf, descBuf_len, dmaRead_of_ok .rxe h1]
  dsimp only
  rw [dmaWrite_of_refused .rxe (by exact h2)]
  rfl

theorem storePiece_writeBack_refused {job : RxJob} {s : State} (h1 : dmaOK s.platform (rxDesc s) 8 = true)
    (h2 : dmaOK s.platform (rxBuffer s) (pieceBytes job).length = true) (h3 : dmaOK s.platform (rxDesc s + 8) 8 = false) :
    storePiece job s = .fault (.dmaNotAdmitted .rxe (rxDesc s + 8) 8) := by
  unfold storePiece
  rw [fieldAddr_descBuf, descBuf_len, dmaRead_of_ok .rxe h1]
  dsimp only
  rw [dmaWrite_of_ok .rxe (by exact h2)]
  dsimp only
  rw [fieldAddr_rxdBack, dmaWrite_of_refused .rxe (by rw [rxWriteBack_length]; exact h3), rxWriteBack_length]
  rfl

/-- Settles O52: the turn is the piece's step, which stops at the first of its three accesses that DmaOK refuses. -/
theorem pieceStepNotAdmitted : Obligations.PieceStepNotAdmitted := by
  intro s job hp hj d a n
  have hturn : takeTurn .rxe s = storePiece job s := rxeStep_of_storing hp hj
  have hn : n = (pieceBytes job).length := by rw [pieceBytes_eq]
  rw [hturn, hn]
  exact ⟨storePiece_read_refused, storePiece_data_refused, storePiece_writeBack_refused⟩

/-! ### TXE's faults (R262, R263, R268, R312) -/

theorem txData_of_refused {d : TxDesc} {s : State} (hl : 0 < d.len) (h : dmaOK s.platform d.addr d.len = false) :
    txData d s = .error (.dmaNotAdmitted .txe d.addr d.len) := by
  unfold txData
  rw [if_neg (Nat.ne_of_gt hl), dmaRead_of_refused .txe h]

theorem txReport_of_refused {a : Addr} {d : TxDesc} {s : State} (hr : cmdHas d.cmd regMap.txdRs = true)
    (h : dmaOK s.platform (a + 12) 1 = false) : txReport a d s = .error (.dmaNotAdmitted .txe (a + 12) 1) := by
  unfold txReport
  rw [if_pos hr, fieldAddr_txdSta, dmaWrite_of_refused .txe h]
  rfl

@[simp] theorem endOfPacket_platform (cmd : Byte) (s : State) : (endOfPacket cmd s).platform = s.platform := by
  rw [endOfPacket_eq]

theorem sendDesc_fetch_refused {s : State} (h : dmaOK s.platform (txDescAddr s) 16 = false) :
    sendDesc s = .fault (.dmaNotAdmitted .txe (txDescAddr s) 16) := by
  unfold sendDesc
  rw [regMap_descSize, dmaRead_of_refused .txe h]
  rfl

theorem sendDesc_unmodelled {s : State} (h1 : dmaOK s.platform (txDescAddr s) 16 = true)
    (h2 : cmdHas (txCurrent s).cmd regMap.txdUnmodelled = true) :
    sendDesc s = .fault (.txUnmodelledDesc s.regs.tx.head.toNat (txCurrent s).cmd) := by
  unfold sendDesc
  rw [regMap_descSize, dmaRead_of_ok .txe h1]
  exact if_pos h2

theorem sendDesc_data_refused {s : State} (h1 : dmaOK s.platform (txDescAddr s) 16 = true)
    (h2 : cmdHas (txCurrent s).cmd regMap.txdUnmodelled = false) (hl : 0 < (txCurrent s).len)
    (h3 : dmaOK s.platform (txCurrent s).addr (txCurrent s).len = false) :
    sendDesc s = .fault (.dmaNotAdmitted .txe (txCurrent s).addr (txCurrent s).len) := by
  rw [sendDesc_of_fetch h1 h2, txData_of_refused hl (by exact h3)]
  rfl

theorem sendDesc_report_refused {s : State} (h1 : dmaOK s.platform (txDescAddr s) 16 = true)
    (h2 : cmdHas (txCurrent s).cmd regMap.txdUnmodelled = false)
    (h3 : 0 < (txCurrent s).len → dmaOK s.platform (txCurrent s).addr (txCurrent s).len = true)
    (hr : cmdHas (txCurrent s).cmd regMap.txdRs = true) (h4 : dmaOK s.platform (txDescAddr s + 12) 1 = false) :
    sendDesc s = .fault (.dmaNotAdmitted .txe (txDescAddr s + 12) 1) := by
  rw [sendDesc_of_fetch h1 h2, txData_of_ok (by exact h3)]
  dsimp only
  rw [txReport_of_refused hr (by rw [endOfPacket_platform]; exact h4)]
  rfl

/-- Settles O55: an enabled turn processes the descriptor, which stops at the first of its four checks that fails. -/
theorem transmitFaultOrder : Obligations.TransmitFaultOrder := by
  intro s hen hh ho d desc cmd a len
  have hturn : takeTurn .txe s = sendDesc s := txeStep_of_enabled ((txeEnabled_iff s).2 ⟨hen, Nat.ne_zero_of_lt hh, hh, ho⟩)
  have hcmd : cmd &&& 0xF4 = 0 → cmdHas (txCurrent s).cmd regMap.txdUnmodelled = false := fun h0 =>
    Bool.eq_false_iff.2 fun hc => (txdUnmodelled_iff cmd).1 hc h0
  rw [hturn]
  exact ⟨sendDesc_fetch_refused,
    fun h1 h2 => sendDesc_unmodelled h1 ((txdUnmodelled_iff cmd).2 h2),
    fun h1 h2 hl h3 => sendDesc_data_refused h1 (hcmd h2) hl h3,
    fun h1 h2 h3 hr h4 => sendDesc_report_refused h1 (hcmd h2) h3 ((txdRs_eq cmd).trans hr) h4⟩

end Sys2Proof.Machine
end

section
/-! PROOFS. The encoding family: decoder and encoder are inverse to each other, register by register (R100, R101, R104, R105),
and the order of the decoder's tests (R101, R312). -/

namespace Sys2Proof

open Config

/-! ### Access words (R100) -/

/-- A field is 0 exactly if each of its bits is. -/
theorem extractLsb'_eq_zero_iff (a : Word) (start len : Nat) :
    a.extractLsb' start len = 0 ↔ ∀ k < len, a.getLsbD (start + k) = false := by
  constructor
  · intro h k hk
    simpa [hk] using congrArg (BitVec.getLsbD · k) h
  · intro h
    apply BitVec.eq_of_getLsbD_eq
    intro k hk
    simp [hk, h k hk]

theorem inWindow_iff (a : Word) : inWindow a = true ↔ ∀ k < 12, a.getLsbD (17 + k) = false :=
  beq_iff_eq.trans (extractLsb'_eq_zero_iff a 17 12)

theorem isWordAccess_iff (a : Word) : isWordAccess a = true ↔ ∀ k < 2, a.getLsbD (29 + k) = false :=
  beq_iff_eq.trans (extractLsb'_eq_zero_iff a 29 2)

theorem isAligned_iff (a : Word) : isAligned a = true ↔ (a.extractLsb' 0 17).toNat % 4 = 0 := by
  have h : (a.extractLsb' 0 2).toNat = (a.extractLsb' 0 17).toNat % 4 := by
    simp only [BitVec.extractLsb'_toNat]
    omega
  rw [isAligned, beq_iff_eq, ← BitVec.toNat_inj, h]
  rfl

/-- The access word at an offset in the direction DIR, SZ and HI being 0 (R100). -/
def accessAt (dir : Bool) (off : Off) : Word := if dir then writeAccess off else readAccess off

/-- Bit 31 is DIR, and the offset's bits are those below bit 17. -/
theorem accessAt_getLsbD (dir : Bool) (off : Off) {k : Nat} (hk : k < 32) :
    (accessAt dir off).getLsbD k = (decide (k = 31) && dir || off.getLsbD k) := by
  have hread : (readAccess off).getLsbD k = off.getLsbD k := by simp [readAccess, hk]
  cases dir with
  | false => simpa [accessAt] using hread
  | true =>
    have htop : (0x80000000 : Word) = BitVec.twoPow 32 31 := by decide
    rw [accessAt, if_pos rfl, writeAccess, BitVec.getLsbD_or, htop, BitVec.getLsbD_twoPow]
    rw [show (off.setWidth 32).getLsbD k = off.getLsbD k from hread]
    simp [eq_comm]

theorem isWriteAccess_accessAt (dir : Bool) (off : Off) : isWriteAccess (accessAt dir off) = dir := by
  rw [isWriteAccess, accessAt_getLsbD dir off (by decide)]
  simp

theorem inWindow_accessAt (dir : Bool) (off : Off) : inWindow (accessAt dir off) = true := by
  rw [inWindow_iff]
  intro k hk
  rw [accessAt_getLsbD dir off (by omega), BitVec.getLsbD_of_ge off (17 + k) (by omega),
    decide_eq_false (show 17 + k ≠ 31 by omega), Bool.false_and, Bool.or_false]

theorem isWordAccess_accessAt (dir : Bool) (off : Off) : isWordAccess (accessAt dir off) = true := by
  rw [isWordAccess_iff]
  intro k hk
  rw [accessAt_getLsbD dir off (by omega), BitVec.getLsbD_of_ge off (29 + k) (by omega),
    decide_eq_false (show 29 + k ≠ 31 by omega), Bool.false_and, Bool.or_false]

theorem extractLsb'_accessAt (dir : Bool) (off : Off) : (accessAt dir off).extractLsb' 0 17 = off := by
  apply BitVec.eq_of_getLsbD_eq
  intro k hk
  rw [BitVec.getLsbD_extractLsb', Nat.zero_add, accessAt_getLsbD dir off (by omega)]
  simp [hk, show k ≠ 31 by omega]

/-- An access word with SZ and HI 0 is made of its direction and its offset. -/
theorem eq_accessAt {a : Word} (hw : inWindow a = true) (hs : isWordAccess a = true) :
    a = accessAt (isWriteAccess a) (a.extractLsb' 0 17) := by
  apply BitVec.eq_of_getLsbD_eq
  intro k hk
  rw [accessAt_getLsbD _ _ hk, BitVec.getLsbD_extractLsb', Nat.zero_add]
  by_cases h31 : k = 31
  · subst h31
    simp [isWriteAccess]
  rw [decide_eq_false h31, Bool.false_and, Bool.false_or]
  by_cases h17 : k < 17
  · simp [h17]
  have hzero : a.getLsbD k = false := by
    by_cases h29 : k < 29
    · obtain ⟨j, rfl⟩ := Nat.exists_eq_add_of_le (show 17 ≤ k by omega)
      exact (inWindow_iff a).1 hw j (by omega)
    · obtain ⟨j, rfl⟩ := Nat.exists_eq_add_of_le (show 29 ≤ k by omega)
      exact (isWordAccess_iff a).1 hs j (by omega)
  rw [hzero, Bool.and_false]

/-! ### Registers and their offsets (R104, R105) -/

/-- The offset of a register (R104). -/
def regOff : Reg → Off
  | .ctrl => regMap.ctrl
  | .status => regMap.status
  | .eerd => regMap.eerd
  | .icr => regMap.icr
  | .ims => regMap.ims
  | .imc => regMap.imc
  | .rctl => regMap.rctl
  | .tctl => regMap.tctl
  | .rdbal => regMap.rdbal
  | .rdbah => regMap.rdbah
  | .rdlen => regMap.rdlen
  | .rdh => regMap.rdh
  | .rdt => regMap.rdt
  | .tdbal => regMap.tdbal
  | .tdbah => regMap.tdbah
  | .tdlen => regMap.tdlen
  | .tdh => regMap.tdh
  | .tdt => regMap.tdt
  | .mta i => mtaOff i

/-- The row of a register in the direction DIR, a write with its data word (R102). -/
def rowOf (dir : Bool) (r : Reg) (w : Word) : Instr := if dir then writeOf r w else readOf r

theorem encode_readOf (r : Reg) : encode (readOf r) = (accessAt false (regOff r), 0) := by cases r <;> rfl

theorem encode_writeOf (r : Reg) (w : Word) : encode (writeOf r w) = (accessAt true (regOff r), w) := by cases r <;> rfl

theorem encode_rowOf (dir : Bool) (r : Reg) (w : Word) :
    encode (rowOf dir r w) = (accessAt dir (regOff r), if dir then w else 0) := by
  cases dir with
  | false => exact encode_readOf r
  | true => exact encode_writeOf r w

/-- Every instruction is a register's read or write (R102). -/
theorem exists_rowOf (i : Instr) : ∃ dir r w, i = rowOf dir r w := by
  cases i with
  | rdCtrl => exact ⟨false, .ctrl, 0, rfl⟩
  | wrCtrl w => exact ⟨true, .ctrl, w, rfl⟩
  | rdStatus => exact ⟨false, .status, 0, rfl⟩
  | wrStatus w => exact ⟨true, .status, w, rfl⟩
  | rdEerd => exact ⟨false, .eerd, 0, rfl⟩
  | wrEerd w => exact ⟨true, .eerd, w, rfl⟩
  | rdIcr => exact ⟨false, .icr, 0, rfl⟩
  | wrIcr w => exact ⟨true, .icr, w, rfl⟩
  | rdIms => exact ⟨false, .ims, 0, rfl⟩
  | wrIms w => exact ⟨true, .ims, w, rfl⟩
  | rdImc => exact ⟨false, .imc, 0, rfl⟩
  | wrImc w => exact ⟨true, .imc, w, rfl⟩
  | rdRctl => exact ⟨false, .rctl, 0, rfl⟩
  | wrRctl w => exact ⟨true, .rctl, w, rfl⟩
  | rdTctl => exact ⟨false, .tctl, 0, rfl⟩
  | wrTctl w => exact ⟨true, .tctl, w, rfl⟩
  | rdRdbal => exact ⟨false, .rdbal, 0, rfl⟩
  | wrRdbal w => exact ⟨true, .rdbal, w, rfl⟩
  | rdRdbah => exact ⟨false, .rdbah, 0, rfl⟩
  | wrRdbah w => exact ⟨true, .rdbah, w, rfl⟩
  | rdRdlen => exact ⟨false, .rdlen, 0, rfl⟩
  | wrRdlen w => exact ⟨true, .rdlen, w, rfl⟩
  | rdRdh => exact ⟨false, .rdh, 0, rfl⟩
  | wrRdh w => exact ⟨true, .rdh, w, rfl⟩
  | rdRdt => exact ⟨false, .rdt, 0, rfl⟩
  | wrRdt w => exact ⟨true, .rdt, w, rfl⟩
  | rdTdbal => exact ⟨false, .tdbal, 0, rfl⟩
  | wrTdbal w => exact ⟨true, .tdbal, w, rfl⟩
  | rdTdbah => exact ⟨false, .tdbah, 0, rfl⟩
  | wrTdbah w => exact ⟨true, .tdbah, w, rfl⟩
  | rdTdlen => exact ⟨false, .tdlen, 0, rfl⟩
  | wrTdlen w => exact ⟨true, .tdlen, w, rfl⟩
  | rdTdh => exact ⟨false, .tdh, 0, rfl⟩
  | wrTdh w => exact ⟨true, .tdh, w, rfl⟩
  | rdTdt => exact ⟨false, .tdt, 0, rfl⟩
  | wrTdt w => exact ⟨true, .tdt, w, rfl⟩
  | rdMta i => exact ⟨false, .mta i, 0, rfl⟩
  | wrMta i w => exact ⟨true, .mta i, w, rfl⟩

theorem lookup_regOff (r : Reg) : lookup (regOff r) = some r := by
  cases r with
  | mta i => exact lookup_mtaOff i
  | _ => rfl

theorem mtaOff_toNat (i : BitVec 7) : (mtaOff i).toNat = 0x5200 + 4 * i.toNat := by
  have hi := i.isLt
  have hmta : regMap.mta.toNat = 0x5200 := rfl
  rw [mtaOff, BitVec.toNat_add, BitVec.toNat_shiftLeft, BitVec.toNat_setWidth, Nat.shiftLeft_eq, hmta]
  omega

/-- An aligned offset inside the multicast table is that of the entry with its index (R105). -/
theorem mtaOff_of_range {off : Off} (h1 : 0x5200 ≤ off.toNat) (h2 : off.toNat < 0x5400) (h3 : off.toNat % 4 = 0) :
    mtaOff (BitVec.ofNat 7 ((off.toNat - 0x5200) / 4)) = off := by
  apply BitVec.eq_of_toNat_eq
  rw [mtaOff_toNat, BitVec.toNat_ofNat]
  omega

theorem regOff_of_mem_registerTable : ∀ row ∈ registerTable, regOff row.2 = row.1 := by decide

/-- No two aligned offsets reach one register: the offset a lookup answers from is the register's own. -/
theorem regOff_of_lookup {off : Off} {r : Reg} (h : lookup off = some r) (h4 : off.toNat % 4 = 0) : regOff r = off := by
  unfold lookup at h
  split at h
  · rename_i row hrow
    cases h
    rw [regOff_of_mem_registerTable row (List.mem_of_find?_eq_some hrow)]
    simpa using List.find?_some hrow
  · split at h
    · rename_i hr
      cases h
      rw [Bool.and_eq_true, decide_eq_true_iff, decide_eq_true_iff] at hr
      exact mtaOff_of_range hr.1 hr.2 h4
    · cases h

/-- The register test of `accessWf` is the decoder's lookup (R74, R101). -/
theorem isMapped_iff (a : Word) : isMapped a = true ↔ ∃ r, lookup (a.extractLsb' 0 17) = some r := by
  have hc : isMapped a = ((registerTable.map Prod.fst).contains (a.extractLsb' 0 17) ||
    (regMap.mta.toNat ≤ (a.extractLsb' 0 17).toNat && (a.extractLsb' 0 17).toNat < regMap.mta.toNat + 512)) := rfl
  rw [hc, lookup, Bool.or_eq_true]
  split
  · rename_i row hrow
    have hmem : a.extractLsb' 0 17 ∈ registerTable.map Prod.fst :=
      List.mem_map.2 ⟨row, List.mem_of_find?_eq_some hrow, by simpa using List.find?_some hrow⟩
    exact iff_of_true (.inl (List.contains_iff_mem.2 hmem)) ⟨row.2, rfl⟩
  · rename_i hnone
    have hno : ¬(registerTable.map Prod.fst).contains (a.extractLsb' 0 17) = true := by
      rw [List.contains_iff_mem, List.mem_map]
      rintro ⟨row, hrow, e⟩
      exact List.find?_eq_none.1 hnone row hrow (beq_of_eq e)
    split
    · rename_i hr
      exact iff_of_true (.inr hr) ⟨_, rfl⟩
    · rename_i hr
      exact iff_of_false (fun h => h.elim hno hr) (by simp)

theorem regOff_aligned (r : Reg) : (regOff r).toNat % 4 = 0 := by
  cases r with
  | mta i => rw [regOff, mtaOff_toNat]; omega
  | _ => rfl

/-! ### The decoder's answer (R101) -/

/-! What each of the four tests answers when it is the first to fail. -/

theorem decode_outsideWindow {a : Word} (h1 : inWindow a = false) (w : Word) : decode a w = .error .outsideWindow := by
  simp [decode, h1]

theorem decode_badWidth {a : Word} (h1 : inWindow a = true) (h2 : isWordAccess a = false) (w : Word) :
    decode a w = .error .badWidth := by
  simp [decode, h1, h2]

theorem decode_misaligned {a : Word} (h1 : inWindow a = true) (h2 : isWordAccess a = true) (h3 : isAligned a = false)
    (w : Word) : decode a w = .error .misaligned := by
  simp [decode, h1, h2, h3]

theorem decode_unmapped {a : Word} (h1 : inWindow a = true) (h2 : isWordAccess a = true) (h3 : isAligned a = true)
    (h4 : lookup (a.extractLsb' 0 17) = none) (w : Word) : decode a w = .error .unmapped := by
  simp [decode, h1, h2, h3, h4]

/-- An instruction is decoded exactly if the four tests pass, and it is the row of the register and the direction. -/
theorem decode_eq_ok_iff (a w : Word) (i : Instr) : decode a w = .ok i ↔
    inWindow a = true ∧ isWordAccess a = true ∧ isAligned a = true ∧
      ∃ r, lookup (a.extractLsb' 0 17) = some r ∧ i = rowOf (isWriteAccess a) r w := by
  cases h1 : inWindow a with
  | false => simp [decode_outsideWindow h1]
  | true =>
    cases h2 : isWordAccess a with
    | false => simp [decode_badWidth h1 h2]
    | true =>
      cases h3 : isAligned a with
      | false => simp [decode_misaligned h1 h2 h3]
      | true =>
        cases h4 : lookup (a.extractLsb' 0 17) with
        | none => simp [decode_unmapped h1 h2 h3 h4]
        | some r => simpa [decode_of_lookup h1 h2 h3 h4, rowOf] using eq_comm

/-- Settles O1: a row is encoded at its register's offset, and the lookup of that offset gives the register back. -/
theorem decodeOfEncodeIsIdentity : Obligations.DecodeOfEncodeIsIdentity := by
  intro i
  obtain ⟨dir, r, w, rfl⟩ := exists_rowOf i
  rw [encode_rowOf, decode_eq_ok_iff, isAligned_iff, extractLsb'_accessAt, isWriteAccess_accessAt]
  refine ⟨inWindow_accessAt dir _, isWordAccess_accessAt dir _, regOff_aligned r, r, lookup_regOff r, ?_⟩
  cases dir <;> rfl

/-- Settles O2: an access word is its direction and its offset, and the offset is that of the register it reaches. -/
theorem decodedTransactionIsItsEncoding : Obligations.DecodedTransactionIsItsEncoding := by
  intro a w i h
  obtain ⟨hw, hs, ha, r, hr, rfl⟩ := (decode_eq_ok_iff a w i).1 h
  have hoff : regOff r = a.extractLsb' 0 17 := regOff_of_lookup hr ((isAligned_iff a).1 ha)
  rw [encode_rowOf, hoff]
  exact ⟨(eq_accessAt hw hs).symm, fun hd => if_pos hd⟩

/-- Settles O3: the decoder's four tests are those of `accessWf`, its lookup the last of them. -/
theorem decoderAcceptsExactlyWellFormedAccess : Obligations.DecoderAcceptsExactlyWellFormedAccess := by
  intro a w
  simp only [decode_eq_ok_iff, accessWf, Bool.and_eq_true, isMapped_iff, and_assoc]
  constructor
  · rintro ⟨i, hw, hs, ha, r, hr, _⟩
    exact ⟨hw, hs, ha, r, hr⟩
  · rintro ⟨hw, hs, ha, r, hr⟩
    exact ⟨_, hw, hs, ha, r, hr, rfl⟩

/-- Settles O4: each test is the comparison of its field with 0. -/
theorem decodeTestsInOrder : Obligations.DecodeTestsInOrder := by
  intro a w
  exact ⟨fun h1 => decode_outsideWindow (beq_false_of_ne h1) w,
    fun h1 h2 => decode_badWidth (beq_of_eq h1) (beq_false_of_ne h2) w,
    fun h1 h2 h3 => decode_misaligned (beq_of_eq h1) (beq_of_eq h2) (beq_false_of_ne h3) w,
    fun h1 h2 h3 h4 => decode_unmapped (beq_of_eq h1) (beq_of_eq h2) (beq_of_eq h3) h4 w⟩

/-- Settles O5: each of the eight words is the encoding of its instruction. -/
theorem specWordsDecode : Obligations.SpecWordsDecode :=
  ⟨decodeOfEncodeIsIdentity (.wrCtrl 0x40), decodeOfEncodeIsIdentity .rdEerd, decodeOfEncodeIsIdentity (.wrIcr 0x80),
    decodeOfEncodeIsIdentity (.wrRctl 2), decodeOfEncodeIsIdentity (.wrRdlen 256), decodeOfEncodeIsIdentity .rdTdt,
    decodeOfEncodeIsIdentity (.rdMta 5), decodeOfEncodeIsIdentity (.wrMta 127 0)⟩

end Sys2Proof
end

section
/-! PROOFS. The fault of a transaction that does not decode (R101, R140, R310); ring arithmetic (R33, R34, R51, R120); the memory
frame of TXE (R113, R115, R268). -/

namespace Sys2Proof.Machine

open Config

/-! ### A transaction that does not decode (R101, R140, R310) -/

theorem hostTransact_of_error {a w : Word} {e : DecodeError} (h : decode a w = .error e) (s : State) :
    hostTransact a w s = .fault (decodeFault a e) := by
  simp [hostTransact, h, raise]

/-- Settles O7: HOST's turn hands the transaction to the decoder, and the test that fails names the fault. -/
theorem stepFaultsOnBadAccess : Obligations.StepFaultsOnBadAccess := by
  intro s a w e rest ts hf ht hp hd
  calc step s = hostTransact a w (setProg rest { s with turns := ts }) := step_host_cons hf ht hp
    _ = .fault (decodeFault a e) := hostTransact_of_error hd _
    _ = _ := by cases e <;> rfl

/-! ### Ring arithmetic (R33, R34, R51, R120) -/

/-- The ring's base is the low word's upper 28 bits below the high word (R36). -/
theorem ringBase_toNat (x : RingRegs) : (ringBase x).toNat = x.bah.toNat * 2 ^ 32 + (x.bal &&& regMap.dbalMask).toNat := by
  have hlow := (x.bal &&& regMap.dbalMask).isLt
  have hhigh := x.bah.isLt
  rw [ringBase, BitVec.toNat_or, BitVec.toNat_shiftLeft, BitVec.toNat_setWidth, BitVec.toNat_setWidth,
    Nat.mod_eq_of_lt (a := x.bah.toNat) (by omega), Nat.mod_eq_of_lt (a := (x.bal &&& regMap.dbalMask).toNat) (by omega),
    Nat.shiftLeft_eq, Nat.mod_eq_of_lt (by omega), ← Nat.shiftLeft_eq, Nat.shiftLeft_add_eq_or_of_lt hlow]

theorem descAddr_toNat (x : RingRegs) (i : Nat) :
    (descAddr x i).toNat = (x.bah.toNat * 2 ^ 32 + (x.bal &&& regMap.dbalMask).toNat + 16 * i) % 2 ^ 64 := by
  rw [descAddr, BitVec.toNat_add, BitVec.toNat_ofNat, ringBase_toNat, regMap_descSize, Nat.add_mod_mod]

theorem ownedCount_eq (n h t : Nat) :
    ownedCount n h t = if n = 0 ∨ n ≤ h then 0 else if n ≤ t then n else if h ≤ t then t - h else t + n - h := by
  split
  · rename_i h0
    exact ownedCount_zero_of_le (by omega)
  · exact ownedCount_of_lt (by omega)

/-- A mask of two neighbouring bits picks out the field of those bits. -/
theorem fieldNat_two_bits {m : Word} {k : Nat} (hm : m.toNat >>> k = 3) (w : Word) :
    fieldNat w m k = (w.extractLsb' k 2).toNat := by
  rw [fieldNat, BitVec.toNat_ushiftRight, BitVec.toNat_and, Nat.shiftRight_and_distrib, hm, BitVec.extractLsb'_toNat]
  exact Nat.and_two_pow_sub_one_eq_mod _ 2

theorem rctlBsize_eq (w : Word) : fieldNat w regMap.rctlBsize regMap.rctlBsizeShift = (w.extractLsb' 16 2).toNat :=
  fieldNat_two_bits (by decide) w

theorem rdmts_eq (w : Word) : rdmts w = (w.extractLsb' 8 2).toNat := fieldNat_two_bits (by decide) w

theorem bufSize_of_bsex_false {w : Word} (h : w.getLsbD 25 = false) :
    bufSize w = match (w.extractLsb' 16 2).toNat with | 0 => 2048 | 1 => 1024 | 2 => 512 | _ => 256 := by
  rw [bufSize, rctlBsex_eq, rctlBsize_eq, h]
  split <;> simp_all

theorem bufSize_of_bsex_true {w : Word} (h : w.getLsbD 25 = true) :
    ((w.extractLsb' 16 2).toNat = 1 → bufSize w = 16384) ∧ ((w.extractLsb' 16 2).toNat = 2 → bufSize w = 8192) ∧
    ((w.extractLsb' 16 2).toNat = 3 → bufSize w = 4096) := by
  rw [bufSize, rctlBsex_eq, rctlBsize_eq, h]
  exact ⟨fun hb => by rw [hb]; rfl, fun hb => by rw [hb]; rfl, fun hb => by rw [hb]; rfl⟩

theorem threshold_of_rdmts (w : Word) (n : Nat) :
    ((w.extractLsb' 8 2).toNat = 0 → threshold w n = n / 2) ∧ ((w.extractLsb' 8 2).toNat = 1 → threshold w n = n / 4) ∧
    ((w.extractLsb' 8 2).toNat = 2 → threshold w n = n / 8) := by
  rw [threshold, rdmts_eq]
  exact ⟨fun hr => by rw [hr]; rfl, fun hr => by rw [hr]; rfl, fun hr => by rw [hr]; rfl⟩

/-- Settles O46: each formula is the lemma about its definition. -/
theorem ringArithmetic : Obligations.RingArithmetic := by
  refine ⟨fun x i => ⟨rfl, descAddr_toNat x i, nextHead_toNat x⟩, ownedCount_eq, fun w => ⟨bufSize_of_bsex_false, ?_⟩,
    threshold_of_rdmts⟩
  simpa only [imp_and] using bufSize_of_bsex_true (w := w)

/-! ### What TXE writes to host memory (R113, R115, R268) -/

theorem txdRs_iff (c : Byte) : cmdHas c regMap.txdRs = true ↔ c &&& 0x08 ≠ 0 := bne_iff_ne

theorem advanceTdh_mem (s : State) : (advanceTdh s).mem = s.mem := by rw [advanceTdh_eq]

/-- A turn of TXE leaves memory, or with RS in the descriptor at the head writes that descriptor's STA byte. -/
theorem txeStep_mem {s t : State} (h : txeStep s = .next t) : t.mem = s.mem ∨
    (cmdHas (txCurrent s).cmd regMap.txdRs = true ∧ ∃ sta, t.mem = writeBytes s.mem (txDescAddr s + 12) [sta]) := by
  obtain rfl | ⟨_, h⟩ := txeStep_next h
  · exact .inl rfl
  · obtain ⟨_, _, acc, hist, ⟨_, rfl⟩ | ⟨hrs, _, rfl⟩⟩ := sendDesc_next h
    · exact .inl (advanceTdh_mem _)
    · exact .inr ⟨hrs, _, advanceTdh_mem _⟩

/-- Settles O56: the one byte TXE can write is the STA byte, and it writes it only with RS. -/
theorem transmitMemoryFrame : Obligations.TransmitMemoryFrame := by
  intro s t h x hx
  obtain hmem | ⟨hrs, sta, hmem⟩ := txeStep_mem h
  · rw [hmem]
  · obtain hne | hno := hx
    · have hsta : x ≠ txDescAddr s + 12 := hne
      rw [hmem]
      refine memRead_writeBytes_other s.mem _ _ x fun k hk => ?_
      obtain rfl : k = 0 := by simpa using hk
      simpa using hsta
    · exact absurd hno ((txdRs_iff _).1 hrs)

end Sys2Proof.Machine
end

section
/-! PROOFS. An enabled ring has descriptors and its head stays below N, whatever agent acts (R155, R178, R234, R270). -/

namespace Sys2Proof.Machine

open Config Safety

/-! ### What readiness rests on -/

/-- Readiness reads the control registers, the rings and RXE's phase, none of which taking a turn off the schedule writes. -/
theorem ringsReady_popTurn {s : State} (hs : RingsReady s) : RingsReady (popTurn s) := by
  obtain ⟨ts, d, e⟩ := popTurn_eq s
  rw [e]
  exact hs

/-- Rings that hold what they held, none of them enabled anew, are as ready as before. -/
theorem ringsReady_congr {s t : State} (hr : ∀ r, ringRegs r t = ringRegs r s)
    (he : ∀ r, ringEnabled r t = true → ringEnabled r s = true) (hs : RingsReady s) : RingsReady t := by
  intro r h
  rw [enableOK_iff, hr, ← enableOK_iff]
  exact hs r (he r h)

/-- Other contents of one ring keep readiness if they pass the enable check wherever the ring is enabled. -/
theorem ringsReady_setRingRegs {r : Ring} {x : RingRegs} {s : State} (hs : RingsReady s)
    (hr : ringEnabled r s = true → enableOK r (setRingRegs r x s) = true) : RingsReady (setRingRegs r x s) := by
  intro r'
  cases r with
  | rx =>
    cases r' with
    | rx => exact hr
    | tx => exact hs .tx
  | tx =>
    cases r' with
    | rx => exact hs .rx
    | tx => exact hr

/-- Anything may be written to a ring that is not enabled (R177). -/
theorem ringsReady_setRingRegs_of_disabled {r : Ring} {s : State} (hs : RingsReady s) (hr : ringEnabled r s = false)
    (x : RingRegs) : RingsReady (setRingRegs r x s) :=
  ringsReady_setRingRegs hs fun he => absurd he (by simp [hr])

/-- The head's advance stays below N (R120). -/
theorem enableOK_nextHead {r : Ring} {s : State} (h : enableOK r s = true) :
    enableOK r (setRingRegs r { ringRegs r s with head := nextHead (ringRegs r s) } s) = true := by
  rw [enableOK_iff] at h ⊢
  rw [setRingRegs_ringRegs]
  exact ⟨h.1, nextHead_lt (ringRegs r s) (Nat.pos_of_ne_zero h.1)⟩

theorem ringsReady_nextHead {s : State} (hs : RingsReady s) (r : Ring) :
    RingsReady (setRingRegs r { ringRegs r s with head := nextHead (ringRegs r s) } s) :=
  ringsReady_setRingRegs hs fun he => enableOK_nextHead (hs r he)

/-! ### Every agent keeps the rings ready -/

/-- A write that does not turn EN on finds it on, or leaves it off. -/
theorem hasAny_of_not_turnsOn {en old new : Word} (h : turnsOn en old new = false) (hn : hasAny new en = true) :
    hasAny old en = true := by
  simpa [turnsOn, hn] using h

/-- The writes of RCTL and TCTL check the ring they turn on, the ring writes are refused while the ring is enabled, and a write
of a tail changes neither N nor the head (R155, R177, R178). -/
theorem Effect.ringsReady {s t : State} (h : Effect s t) (hs : RingsReady s) : RingsReady t := by
  cases h with
  | rctl w hw he =>
    intro r hr
    cases r with
    | rx =>
      cases hon : turnsOn regMap.rctlEn s.regs.rctl w with
      | true => exact he hon
      | false =>
        obtain hn | hst := (Bool.or_eq_true_iff ..).1 hr
        · exact hs .rx ((Bool.or_eq_true_iff ..).2 (.inl (hasAny_of_not_turnsOn hon hn)))
        · exact hs .rx ((Bool.or_eq_true_iff ..).2 (.inr hst))
    | tx => exact hs .tx hr
  | tctl w hw he =>
    intro r hr
    cases r with
    | rx => exact hs .rx hr
    | tx =>
      cases hon : turnsOn regMap.tctlEn s.regs.tctl w with
      | true => exact he hon
      | false => exact hs .tx (hasAny_of_not_turnsOn hon hr)
  | bal r off w hd | bah r off w hd | len r off w hd | head r off w hd => exact ringsReady_setRingRegs_of_disabled hs hd _
  | tail r off w =>
    refine ringsReady_setRingRegs hs (x := { ringRegs r s with tail := w.setWidth 16 }) fun he => ?_
    rw [enableOK_iff, setRingRegs_ringRegs]
    exact (enableOK_iff r s).1 (hs r he)
  | _ => exact hs

theorem HostEffect.ringsReady {s t : State} (h : HostEffect s t) (hs : RingsReady s) : RingsReady t := by
  cases h with
  | transaction p u hst e => exact e.ringsReady hs
  | store | own => exact hs

/-- A frame passes the checks of its arrival only while the receive ring is enabled (R221). -/
theorem rctlEn_of_dropReason_none {f : Frame} {g : Regs} (h : dropReason f g = none) : hasAny g.rctl regMap.rctlEn = true := by
  by_contra hen
  rw [dropReason, if_pos (by simpa using hen)] at h
  cases h

/-- An accepted frame finds the receive ring enabled, so that storing it enables no ring anew. -/
theorem frameArrives_ringsReady {f : Frame} {s t : State} (h : frameArrives f s = .next t) (hs : RingsReady s) :
    RingsReady t := by
  obtain rfl | ⟨_, ⟨r, _, rfl⟩ | ⟨_, _, rfl⟩ | ⟨hacc, _, rfl⟩⟩ := frameArrives_next h
  · exact hs
  · exact hs
  · exact hs
  · intro r hr
    cases r with
    | rx => exact hs .rx (by simp [ringEnabled, rctlEn_of_dropReason_none hacc])
    | tx => exact hs .tx hr

/-- A piece is stored while the receive ring is enabled; RDH advances within N (R234). -/
theorem rxeStep_ringsReady {s t : State} (h : rxeStep s = .next t) (hs : RingsReady s) : RingsReady t := by
  obtain rfl | ⟨job, hp, _, h⟩ := rxeStep_next h
  · exact hs
  · obtain ⟨_, _, _, rfl⟩ := storePiece_next h
    obtain ⟨c, ph, e⟩ := afterPiece_shape job (pieceStored job s)
    have hrx : ringEnabled .rx s = true := (ringEnabled_rx_iff s).2 (.inr (by simp [hp]))
    rw [e]
    refine ringsReady_congr (fun r => by cases r <;> rfl) (fun r hr => ?_) (ringsReady_nextHead hs .rx)
    cases r with
    | rx => exact hrx
    | tx => exact hr

/-- TDH advances within N (R270). -/
theorem txeStep_ringsReady {s t : State} (h : txeStep s = .next t) (hs : RingsReady s) : RingsReady t := by
  obtain rfl | ⟨_, h⟩ := txeStep_next h
  · exact hs
  · obtain ⟨_, _, acc, hist, ⟨_, rfl⟩ | ⟨_, _, rfl⟩⟩ := sendDesc_next h
    · rw [advanceTdh_eq]
      exact ringsReady_nextHead hs .tx
    · rw [advanceTdh_eq]
      exact ringsReady_nextHead hs .tx

/-- Every agent's turn keeps the rings ready; EEC's and LINK's own steps touch neither rings nor control registers. -/
theorem takeTurn_ringsReady {x : Turn} {s t : State} (h : takeTurn x s = .next t) (hs : RingsReady s) : RingsReady t := by
  cases x with
  | host => exact (hostStep_effect h).ringsReady hs
  | eec => obtain rfl | ⟨_, rfl⟩ := eecStep_next h <;> exact hs
  | rxe => exact rxeStep_ringsReady h hs
  | txe => exact txeStep_ringsReady h hs
  | linkUp => obtain rfl | ⟨_, rfl⟩ := linkUpStep_next h <;> exact hs
  | linkDown => obtain rfl | ⟨_, rfl⟩ := linkDownStep_next h <;> exact hs
  | frame f => exact frameArrives_ringsReady h hs
  | otherCauses v => cases h; exact hs

/-- Settles O36: every agent's turn keeps the rings ready. -/
theorem stepKeepsRingsReady : Obligations.StepKeepsRingsReady := by
  intro s t hs h
  exact takeTurn_ringsReady (step_next h).2 (ringsReady_popTurn hs)

end Sys2Proof.Machine
end

section
/-! PROOFS. Placed transactions (R140, log 2), and register reads (R141 to R175). -/

namespace Sys2Proof.Machine

open Config Safety

/-! ### A transaction placed next (log 2) -/

theorem decode_of_decodeTableWord {nbits w : Nat} {i : Instr} (h : decodeTableWord nbits w = some i) :
    decode (wordsOfBits nbits w).1 (wordsOfBits nbits w).2 = .ok i := by
  unfold decodeTableWord at h
  split at h
  · cases h
    assumption
  · cases h

/-- Settles O8: HOST's turn takes the placed transaction off its program again, and runs it. -/
theorem placedTransactionRunsNext : Obligations.PlacedTransactionRunsNext := by
  intro s nbits w i hf hd
  calc step (s.withFetchWord nbits w)
      = hostTransact (wordsOfBits nbits w).1 (wordsOfBits nbits w).2 s :=
        step_host_cons (s := s.withFetchWord nbits w) hf rfl rfl
    _ = exec i s := hostTransact_of_decode (decode_of_decodeTableWord hd) s

/-! ### Register reads (R141 to R175) -/

/-- A read of a stored value returns it to HOST, records the transaction and leaves the rest (R140). -/
theorem readStored_eq (off : Off) (v : Word) (s : State) :
    readStored off v s = .next { s with readData := v, history := s.history ++ [.transaction off false v] } := rfl

/-- MTA[i] is the i-th word from the table's offset on (R104). -/
theorem mtaOff_eq (i : BitVec 7) : mtaOff i = 0x05200 + i.setWidth 17 * 4 := by
  rw [mtaOff, BitVec.shiftLeft_eq_mul_twoPow]
  rfl

/-- Settles O10: each of the four rows is a read of a stored value. -/
theorem controlReadsReturnStoredValue : Obligations.ControlReadsReturnStoredValue := by
  intro s i ret
  refine ⟨readStored_eq _ _ s, readStored_eq _ _ s, readStored_eq _ _ s, ?_⟩
  rw [← mtaOff_eq]
  exact readStored_eq (mtaOff i) (mtaGet i s) s

/-- Settles O11: each of the ten rows is a read of a stored value. -/
theorem ringReadsReturnStoredValue : Obligations.RingReadsReturnStoredValue := fun s =>
  ⟨readStored_eq _ s.regs.rx.bal s, readStored_eq _ s.regs.rx.bah s, readStored_eq _ s.regs.rx.len s,
    readStored_eq _ (s.regs.rx.head.setWidth 32) s, readStored_eq _ (s.regs.rx.tail.setWidth 32) s,
    readStored_eq _ s.regs.tx.bal s, readStored_eq _ s.regs.tx.bah s, readStored_eq _ s.regs.tx.len s,
    readStored_eq _ (s.regs.tx.head.setWidth 32) s, readStored_eq _ (s.regs.tx.tail.setWidth 32) s⟩

/-- Bit 1 of STATUS is LU, whatever is drawn (R143). -/
theorem statusWord_lu (linkUp : Bool) (draw : Word) : (statusWord linkUp draw).getLsbD 1 = linkUp := by
  have hlu : regMap.statusLu.getLsbD 1 = true := by decide
  cases linkUp <;> simp [statusWord, hlu]

/-- The named bits of IMS as a read shows it are those of IMS, whatever is drawn (R171). -/
theorem imsWord_named (ims draw : Word) : imsWord ims draw &&& regMap.icrNamed = ims &&& regMap.icrNamed := by
  ext i hi
  simp only [imsWord, BitVec.getElem_and, BitVec.getElem_or, BitVec.getElem_not]
  cases regMap.icrNamed[i] <;> simp

/-- Settles O12: the word read is the named bits and a draw in the rest. -/
theorem drawnReadsShowNamedBits : Obligations.DrawnReadsShowNamedBits := fun s =>
  ⟨⟨_, rfl, statusWord_lu s.linkUp _⟩, ⟨_, rfl, imsWord_named s.regs.ims _⟩⟩

/-- Settles O14: the row's meaning, at its offset. -/
theorem icrReadClearsUnderParameter : Obligations.IcrReadClearsUnderParameter := fun _ => rfl

/-- Settles O15: the two access words are the encodings of their rows, and each row's meaning is its fault. -/
theorem wrongDirectionStops : Obligations.WrongDirectionStops := fun _ w =>
  ⟨decodeOfEncodeIsIdentity (.wrStatus w), decodeOfEncodeIsIdentity .rdImc, rfl, rfl⟩

end Sys2Proof.Machine
end

section
/-! PROOFS. Register writes: the control registers (R142, R146, R148), the rings (R150 to R168, R177, R179), the interrupt
registers (R170, R172, R174) and the multicast table (R175, R176). -/

namespace Sys2Proof.Machine

open Config Safety

/-! ### Fields of a written word (R32 to R39) -/

/-- Fields of one mask, moved down by the place of its lowest bit, are equal exactly if the masked words are. -/
theorem fieldNat_inj {v w m : Word} {k : Nat} (hm : m >>> k <<< k = m) :
    fieldNat v m k = fieldNat w m k ↔ v &&& m = w &&& m := by
  have hback (x : Word) : (x &&& m) >>> k <<< k = x &&& m := by
    calc (x &&& m) >>> k <<< k = x >>> k <<< k &&& m := by
          rw [BitVec.ushiftRight_and_distrib, BitVec.shiftLeft_and_distrib, hm]
      _ = x &&& m := by
          rw [← hm]
          apply BitVec.eq_of_getLsbD_eq
          intro i hi
          by_cases hik : i < k
          · simp [hik]
          · simp [hi, hik, Nat.add_sub_of_le (Nat.le_of_not_lt hik)]
  constructor
  · intro h
    rw [← hback v, ← hback w, BitVec.eq_of_toNat_eq h]
  · intro h
    rw [fieldNat, h, fieldNat]

/-- The mask of all bits from k on tests the field of those bits. -/
theorem hasAny_high_iff {w m : Word} {k : Nat} (hm : m = BitVec.allOnes 32 <<< k) :
    hasAny w m = false ↔ w.extractLsb' k (32 - k) = 0 := by
  have hmask (i : Nat) (hi : i < 32) : m.getLsbD i = decide (k ≤ i) := by
    rw [hm, BitVec.getLsbD_shiftLeft, BitVec.getLsbD_allOnes, Bool.eq_iff_iff]
    simp only [Bool.and_eq_true, Bool.not_eq_true', decide_eq_true_iff, decide_eq_false_iff_not]
    omega
  rw [hasAny_eq_false, extractLsb'_eq_zero_iff]
  constructor
  · intro h j hj
    have hbit := congrArg (BitVec.getLsbD · (k + j)) h
    simpa [hmask (k + j) (by omega)] using hbit
  · intro h
    apply BitVec.eq_of_getLsbD_eq
    intro i hi
    rw [BitVec.getLsbD_and, hmask i hi]
    by_cases hik : k ≤ i
    · obtain ⟨j, rfl⟩ := Nat.exists_eq_add_of_le hik
      simp [h j (by omega)]
    · simp [hik]

/-- Bits 31:20 of a length must be zero (R37). -/
theorem dlenMbz_iff (w : Word) : hasAny w regMap.dlenMbz = true ↔ w.extractLsb' 20 12 ≠ 0 := by
  rw [← Bool.not_eq_false, hasAny_high_iff (k := 20) (by decide)]

/-- Bits 31:16 of a cursor must be zero (R38, R39). -/
theorem cursorMbz_iff (w : Word) : hasAny w (~~~regMap.cursorMask) = true ↔ w.extractLsb' 16 16 ≠ 0 := by
  rw [← Bool.not_eq_false, hasAny_high_iff (k := 16) (by decide)]

/-- A cursor register takes the low half of the written word. -/
theorem lowHalf_eq (w : Word) : w.setWidth 16 = w.extractLsb' 0 16 := by
  ext i hi
  simp

theorem rctlLegal_iff (w : Word) : rctlLegal w = true ↔
    w &&& 0xF9FC4CC1 = 0 ∧ w &&& 0x300 ≠ 0x300 ∧ ¬(w.getLsbD 25 = true ∧ w &&& 0x30000 = 0) := by
  have hmbz : hasAny w (~~~regMap.rctlModelled) = false ↔ w &&& 0xF9FC4CC1 = 0 := hasAny_eq_false
  have hrdmts : rdmts w = 3 ↔ w &&& 0x300 = 0x300 := fieldNat_inj (w := 0x300) (m := 0x300) (k := 8) (by decide)
  have hbsize : fieldNat w regMap.rctlBsize regMap.rctlBsizeShift = 0 ↔ w &&& 0x30000 = 0 :=
    fieldNat_inj (w := 0) (m := 0x30000) (k := 16) (by decide)
  simp only [rctlLegal, Bool.and_eq_true, Bool.not_eq_true', Bool.and_eq_false_iff, bne_iff_ne, beq_eq_false_iff_ne, Ne,
    hmbz, hrdmts, hbsize, rctlBsex_eq, not_and_or, Bool.not_eq_true, and_assoc]

theorem tctlLegal_iff (w : Word) : tctlLegal w = true ↔ w &&& 0xFFC00005 = 0 := by
  rw [tctlLegal, Bool.not_eq_true']
  exact hasAny_eq_false

/-- EN goes from 0 to 1 (R178). -/
theorem rctl_turnsOn_iff (old new : Word) :
    turnsOn regMap.rctlEn old new = true ↔ new.getLsbD 1 = true ∧ old.getLsbD 1 = false := by
  rw [turnsOn, Bool.and_eq_true, Bool.not_eq_true', rctlEn_eq, rctlEn_eq]

theorem tctl_turnsOn_iff (old new : Word) :
    turnsOn regMap.tctlEn old new = true ↔ new.getLsbD 1 = true ∧ old.getLsbD 1 = false := by
  rw [turnsOn, Bool.and_eq_true, Bool.not_eq_true', tctlEn_eq, tctlEn_eq]

/-! ### CTRL, RCTL and TCTL (R142, R146, R148, R178) -/

/-- Settles O16: WR CTRL tests the bits in which W and CTRL differ against the mask of every bit but SLU. -/
theorem ctrlWriteChangesOnlySlu : Obligations.CtrlWriteChangesOnlySlu := by
  intro s w
  have htest : hasAny (w ^^^ s.regs.ctrl) (~~~regMap.ctrlSlu) = true ↔ (w ^^^ s.regs.ctrl) &&& 0xFFFFFFBF ≠ 0 :=
    hasAny_eq_true
  exact ⟨fun h => if_neg fun hc => htest.1 hc h, fun h => if_pos (htest.2 h)⟩

/-- A write that tests legality and then, where it turns the ring on, the ring: stored, or stopped by the first check that
fails. -/
theorem checkedWrite_cases {legal on ok : Bool} {f05 f08 stored r : Result}
    (hr : r = if !legal then f05 else if on && !ok then f08 else stored) :
    (legal = true → (on = true → ok = true) → r = stored) ∧ (¬legal = true → r = f05) ∧
    (legal = true → on = true → ¬ok = true → r = f08) := by
  subst hr
  refine ⟨fun hl ho => ?_, fun hl => if_pos (by simpa using hl), fun hl ho hk => ?_⟩
  · rw [if_neg (by simp [hl]), if_neg (by simpa using ho)]
  · rw [if_neg (by simp [hl]), if_pos (by simpa [ho] using hk)]

/-- Settles O17: WR RCTL's checks are the rule's. -/
theorem rctlWriteChecks : Obligations.RctlWriteChecks := by
  intro s w legal turnsOn ready
  have hl : rctlLegal w = true ↔ legal := rctlLegal_iff w
  have ht : Machine.turnsOn regMap.rctlEn s.regs.rctl w = true ↔ turnsOn := rctl_turnsOn_iff _ w
  have hr : enableOK .rx s = true ↔ ready := enableOK_iff .rx s
  rw [← hl, ← ht, ← hr]
  exact checkedWrite_cases rfl

/-- Settles O18: WR TCTL's checks are the rule's. -/
theorem tctlWriteChecks : Obligations.TctlWriteChecks := by
  intro s w legal turnsOn ready
  have hl : tctlLegal w = true ↔ legal := tctlLegal_iff w
  have ht : Machine.turnsOn regMap.tctlEn s.regs.tctl w = true ↔ turnsOn := tctl_turnsOn_iff _ w
  have hr : enableOK .tx s = true ↔ ready := enableOK_iff .tx s
  rw [← hl, ← ht, ← hr]
  exact checkedWrite_cases rfl

/-! ### The ring writes, on either ring (R150 to R168, R177) -/

section
variable {r : Ring} {s : State}

theorem configWriteOK_of_disabled (h : ringEnabled r s = false) : configWriteOK r s = true := by
  rw [configWriteOK, h, Bool.not_false]

theorem configWriteOK_of_enabled (h : ringEnabled r s = true) : ¬configWriteOK r s = true := by
  rw [configWriteOK, h, Bool.not_true]
  exact Bool.false_ne_true

variable (off : Off) (w : Word)

theorem writeBal_of_disabled (h : ringEnabled r s = false) :
    writeBal r off w s = .next (finishWrite off w (setRingRegs r { ringRegs r s with bal := w &&& regMap.dbalMask } s)) :=
  if_pos (configWriteOK_of_disabled h)

theorem writeBal_of_enabled (h : ringEnabled r s = true) :
    writeBal r off w s = .fault (.configWhileEnabled (writeAccess off) w) := if_neg (configWriteOK_of_enabled h)

theorem writeBah_of_disabled (h : ringEnabled r s = false) :
    writeBah r off w s = .next (finishWrite off w (setRingRegs r { ringRegs r s with bah := w } s)) :=
  if_pos (configWriteOK_of_disabled h)

theorem writeBah_of_enabled (h : ringEnabled r s = true) :
    writeBah r off w s = .fault (.configWhileEnabled (writeAccess off) w) := if_neg (configWriteOK_of_enabled h)

/-- On a ring that is not enabled a length is stored, or stops at its must-be-zero bits. -/
theorem writeLen_of_disabled (h : ringEnabled r s = false) :
    (w.extractLsb' 20 12 = 0 → writeLen r off w s =
      .next (finishWrite off w (setRingRegs r { ringRegs r s with len := w &&& regMap.dlenMask } s))) ∧
    (w.extractLsb' 20 12 ≠ 0 → writeLen r off w s = .fault (.unmodelledField (writeAccess off) w)) := by
  rw [writeLen, if_pos (configWriteOK_of_disabled h)]
  exact ⟨fun hw => if_neg fun hm => (dlenMbz_iff w).1 hm hw, fun hw => if_pos ((dlenMbz_iff w).2 hw)⟩

theorem writeLen_of_enabled (h : ringEnabled r s = true) :
    writeLen r off w s = .fault (.configWhileEnabled (writeAccess off) w) := if_neg (configWriteOK_of_enabled h)

/-- On a ring that is not enabled a head is stored, or stops at its must-be-zero bits. -/
theorem writeHead_of_disabled (h : ringEnabled r s = false) :
    (w.extractLsb' 16 16 = 0 → writeHead r off w s =
      .next (finishWrite off w (setRingRegs r { ringRegs r s with head := w.extractLsb' 0 16 } s))) ∧
    (w.extractLsb' 16 16 ≠ 0 → writeHead r off w s = .fault (.unmodelledField (writeAccess off) w)) := by
  rw [writeHead, if_pos (configWriteOK_of_disabled h), lowHalf_eq]
  exact ⟨fun hw => if_neg fun hm => (cursorMbz_iff w).1 hm hw, fun hw => if_pos ((cursorMbz_iff w).2 hw)⟩

theorem writeHead_of_enabled (h : ringEnabled r s = true) :
    writeHead r off w s = .fault (.configWhileEnabled (writeAccess off) w) := if_neg (configWriteOK_of_enabled h)

theorem writeTail_of_mbz (hw : w.extractLsb' 16 16 ≠ 0) :
    writeTail r off w s = .fault (.unmodelledField (writeAccess off) w) := if_pos ((cursorMbz_iff w).2 hw)

/-- A tail is stored unless the ring is enabled and the owned count would shrink. -/
theorem writeTail_of_ok (hw : w.extractLsb' 16 16 = 0)
    (ht : ringEnabled r s = true → tailOK r (w.extractLsb' 0 16) s = true) :
    writeTail r off w s = .next (finishWrite off w (setRingRegs r { ringRegs r s with tail := w.extractLsb' 0 16 } s)) := by
  rw [writeTail, if_neg fun hm => (cursorMbz_iff w).1 hm hw, lowHalf_eq, if_neg (by simpa using ht)]

theorem writeTail_of_retract (hw : w.extractLsb' 16 16 = 0) (he : ringEnabled r s = true)
    (ht : ¬tailOK r (w.extractLsb' 0 16) s = true) :
    writeTail r off w s = .fault (.tailRetract (writeAccess off) w) := by
  rw [writeTail, if_neg fun hm => (cursorMbz_iff w).1 hm hw, lowHalf_eq, if_pos (by simpa [he] using ht)]
  rfl

end

/-! ### The rows of the two rings (R53) -/

theorem ringEnabled_rx_false {s : State} (hen : s.regs.rctl.getLsbD 1 = false) (hp : s.rxPhase = .idle) :
    ringEnabled .rx s = false := by
  rw [← Bool.not_eq_true, ringEnabled_rx_iff, hen]
  simp [hp]

theorem ringEnabled_tx_false {s : State} (hen : s.regs.tctl.getLsbD 1 = false) : ringEnabled .tx s = false := by
  rw [← Bool.not_eq_true, ringEnabled_tx_iff, hen]
  exact Bool.false_ne_true

/-- Settles O19: the two writes of a ring's base, on either ring. -/
theorem baseWrites : Obligations.BaseWrites := by
  intro s w
  refine ⟨fun hen hp => ?_, fun he => ?_, fun hen => ?_, fun he => ?_⟩
  · have hd := ringEnabled_rx_false hen hp
    exact ⟨writeBal_of_disabled _ w hd, writeBah_of_disabled _ w hd⟩
  · have hr := (ringEnabled_rx_iff s).2 he
    exact ⟨writeBal_of_enabled _ w hr, writeBah_of_enabled _ w hr⟩
  · have hd := ringEnabled_tx_false hen
    exact ⟨writeBal_of_disabled _ w hd, writeBah_of_disabled _ w hd⟩
  · have hr := (ringEnabled_tx_iff s).2 he
    exact ⟨writeBal_of_enabled _ w hr, writeBah_of_enabled _ w hr⟩

/-- Settles O20: the write of a ring's length, on either ring. -/
theorem lengthWrites : Obligations.LengthWrites := fun s w =>
  ⟨fun hen hp => writeLen_of_disabled _ w (ringEnabled_rx_false hen hp),
    fun he => writeLen_of_enabled _ w ((ringEnabled_rx_iff s).2 he),
    fun hen => writeLen_of_disabled _ w (ringEnabled_tx_false hen),
    fun he => writeLen_of_enabled _ w ((ringEnabled_tx_iff s).2 he)⟩

/-- Settles O21: the write of a ring's head, on either ring. -/
theorem headWrites : Obligations.HeadWrites := fun s w =>
  ⟨fun hen hp => writeHead_of_disabled _ w (ringEnabled_rx_false hen hp),
    fun he => writeHead_of_enabled _ w ((ringEnabled_rx_iff s).2 he),
    fun hen => writeHead_of_disabled _ w (ringEnabled_tx_false hen),
    fun he => writeHead_of_enabled _ w ((ringEnabled_tx_iff s).2 he)⟩

/-- Settles O22: the write of a ring's tail, on either ring; the tail check fails exactly if the owned count would shrink. -/
theorem tailWrites : Obligations.TailWrites := by
  intro s w shrinks rxEnabled txEnabled
  have hrx : ringEnabled .rx s = true ↔ rxEnabled := ringEnabled_rx_iff s
  have htx : ringEnabled .tx s = true ↔ txEnabled := ringEnabled_tx_iff s
  have hshrinks (r : Ring) : shrinks (ringRegs r s) ↔ ¬tailOK r (w.extractLsb' 0 16) s = true := by
    rw [tailOK_iff, Nat.not_le]
    rfl
  rw [← hrx, ← htx, ← ringRegs_rx s, ← ringRegs_tx s, hshrinks, hshrinks, not_and_not_right, not_and_not_right]
  exact ⟨writeTail_of_ok _ w, writeTail_of_mbz _ w, writeTail_of_retract _ w,
    writeTail_of_ok _ w, writeTail_of_mbz _ w, writeTail_of_retract _ w⟩

/-! ### The interrupt registers (R170, R172, R174) -/

/-- A bit that both words have is pending whatever else is unmasked. -/
theorem hasAny_or_of_and {icr w : Word} (h : icr &&& w ≠ 0) (ims : Word) : hasAny icr (ims ||| w) = true := by
  rw [hasAny_eq_true, BitVec.and_or_distrib_left]
  exact fun h0 => h (BitVec.or_eq_zero_iff.1 h0).2

/-- Settles O23: the three access words are the encodings of their rows, and each row's meaning is the rule's. -/
theorem interruptRegisterWrites : Obligations.InterruptRegisterWrites := fun s w =>
  ⟨decodeOfEncodeIsIdentity (.wrIcr w), decodeOfEncodeIsIdentity (.wrIms w), decodeOfEncodeIsIdentity (.wrImc w),
    fun h => ⟨_, rfl, hasAny_or_of_and h s.regs.ims⟩, rfl, rfl, rfl⟩

/-! ### The multicast table (R175, R176) -/

theorem mtaGet_mtaSet_same (i : BitVec 7) (w : Word) (s : State) : mtaGet i (mtaSet i w s) = w :=
  Vector.getElem_set_self i.isLt

theorem mtaGet_mtaSet_of_ne {i j : BitVec 7} (h : j ≠ i) (w : Word) (s : State) : mtaGet j (mtaSet i w s) = mtaGet j s :=
  Vector.getElem_set_ne i.isLt j.isLt fun e => h (BitVec.eq_of_toNat_eq e.symm)

/-- With MPE = 1 the filter accepts the same frames whatever the table holds (R176). -/
theorem filterAccepts_mta {g : Regs} (h : g.rctl.getLsbD 4 = true) (m : Vector Word 128) (f : Frame) :
    FilterAccepts f { g with mta := m } ↔ FilterAccepts f g := by
  rw [← accepts_iff, ← accepts_iff, accepts, accepts, filterRegs_mta h]

/-- Settles O24: entry i is set in the table, which the filter does not see with MPE = 1. -/
theorem multicastTableWrites : Obligations.MulticastTableWrites := by
  intro s i w
  rw [← mtaOff_eq]
  exact ⟨_, rfl, ⟨_, rfl, mtaGet_mtaSet_same i w s⟩, fun j hj => mtaGet_mtaSet_of_ne hj w s,
    fun h => filterAccepts_mta h _, rfl⟩

end Sys2Proof.Machine
end

section
/-! PROOFS. The receive engine: why an arriving frame is dropped and when it is stored (R221 to R231), and the step that stores a
piece of it (R232 to R238). -/

namespace Sys2Proof.Machine

open Config Safety

/-! ### The tests on an arriving frame, in their order (R221 to R225) -/

section
variable {f : Frame} {g : Regs}

theorem dropReason_of_disabled (hen : ¬g.rctl.getLsbD 1 = true) : dropReason f g = some .disabled :=
  if_pos (by simpa [rctlEn_eq] using hen)

theorem dropReason_of_filtered (hen : g.rctl.getLsbD 1 = true) (hacc : ¬FilterAccepts f g) :
    dropReason f g = some .filtered := by
  rw [dropReason, rctlEn_eq, if_neg (by simpa using hen), if_pos (by simpa [← accepts_iff] using hacc)]

/-- The tests after the filter: length, then receive errors (R224, R225). -/
theorem dropReason_of_accepted (hen : g.rctl.getLsbD 1 = true) (hacc : FilterAccepts f g) :
    dropReason f g =
      if f.bytes.length < 64 then some .runt
      else if 16384 < f.bytes.length then some .tooLong
      else if 1522 < f.bytes.length ∧ g.rctl.getLsbD 5 = false then some .long
      else if f.err ≠ 0 ∧ g.rctl.getLsbD 2 = false then some .error
      else none := by
  rw [dropReason, rctlEn_eq, rctlLpe_eq, rctlSbp_eq, if_neg (by simpa using hen), if_neg (by simpa [← accepts_iff] using hacc)]
  rfl

end

/-- A case that a bit allows is not refused for that bit, where the bit is set in that case (LPE in R224, SBP in R225). -/
theorem not_and_eq_false {p : Prop} {b : Bool} (h : p → b = true) : ¬(p ∧ b = false) := by
  rintro ⟨hp, rfl⟩
  cases h hp

/-! ### The arrival (R221) -/

section
variable {f : Frame} {s : State}

theorem frameArrives_of_not_enabled (h : s.linkUp = false ∨ s.rxPhase ≠ .idle) : frameArrives f s = .next s := by
  refine if_neg fun he => ?_
  obtain ⟨hl, hp⟩ := (frameEnabled_iff s).1 he
  obtain hn | hn := h
  · exact absurd hl (by simp [hn])
  · exact hn hp

/-- With the link up and RXE idle a frame arrives, and is recorded before its fate is decided. -/
theorem frameArrives_of_enabled (hl : s.linkUp = true) (hp : s.rxPhase = .idle) :
    frameArrives f s = .next (frameFate f (record (.frameIn f) s)) := if_pos ((frameEnabled_iff s).2 ⟨hl, hp⟩)

/-- A dropped frame leaves its arrival and its drop in the history, and nothing else. -/
theorem frameArrives_of_drop (hl : s.linkUp = true) (hp : s.rxPhase = .idle) {r : DropReason}
    (hd : dropReason f s.regs = some r) :
    frameArrives f s = .next { s with history := s.history ++ [.frameIn f, .drop f r] } := by
  rw [frameArrives_of_enabled hl hp, frameFate_drop (s := record (.frameIn f) s) hd]
  simp [record]

end

/-- Settles O47: a frame is dropped for the first test that fails. -/
theorem frameDropOrder : Obligations.FrameDropOrder := by
  intro f s len en acc dropped
  refine ⟨frameArrives_of_not_enabled, fun hl hp => ?_⟩
  have hdrop {r : DropReason} (h : dropReason f s.regs = some r) : takeTurn (.frame f) s = dropped r :=
    frameArrives_of_drop hl hp h
  refine ⟨fun hen => ?_, fun hen hacc => ?_, fun hen hacc h1 => ?_, fun hen hacc h1 => ?_, fun hen hacc h1 h2 h3 => ?_,
    fun hen hacc h1 h2 h3 h4 h5 => ?_⟩ <;> apply hdrop
  · exact dropReason_of_disabled hen
  · exact dropReason_of_filtered hen hacc
  · rw [dropReason_of_accepted hen hacc, if_pos h1]
  · rw [dropReason_of_accepted hen hacc, if_neg (by omega), if_pos h1]
  · rw [dropReason_of_accepted hen hacc, if_neg (by omega), if_neg (by omega), if_pos ⟨h1, h3⟩]
  · rw [dropReason_of_accepted hen hacc, if_neg (by omega), if_neg (by omega), if_neg (not_and_eq_false h3), if_pos ⟨h4, h5⟩]

/-! ### A frame that passes every test (R226 to R231) -/

/-- The job of an accepted frame, at the places R226 to R230 give its parts. -/
theorem acceptJob_eq (f : Frame) (g : Regs) : acceptJob f g =
    { data := if g.rctl.getLsbD 26 then f.bytes.take (f.bytes.length - 4) else f.bytes
      err := f.err &&& 0x97
      k := pieceCount (if g.rctl.getLsbD 26 then f.bytes.take (f.bytes.length - 4) else f.bytes).length (bufSize g.rctl)
      j := 0, bsize := bufSize g.rctl, free0 := ringOwned g.rx, thr := threshold g.rctl (ringCount g.rx) } := by
  rw [acceptJob, storedBytes, rctlSecrc_eq]
  rfl

/-- Settles O48: the frame passes the five tests, and is stored or not as its pieces fit the owned descriptors. -/
theorem frameAcceptedOrOverrun : Obligations.FrameAcceptedOrOverrun := by
  intro f s hl hp hen hacc hmin hmax hlong herr data b k d
  have hpass : dropReason f (record (.frameIn f) s).regs = none := by
    rw [record_regs, dropReason_of_accepted hen hacc, if_neg (by omega), if_neg (by omega), if_neg (not_and_eq_false hlong),
      if_neg (not_and_eq_false herr)]
  have hjob : acceptJob f (record (.frameIn f) s).regs =
      { data := data, err := f.err &&& 0x97, k := k, j := 0, bsize := b, free0 := d
        thr := threshold s.regs.rctl (ringCount s.regs.rx) } := acceptJob_eq f s.regs
  have hturn : takeTurn (.frame f) s = .next (frameFate f (record (.frameIn f) s)) := frameArrives_of_enabled hl hp
  rw [hturn]
  refine ⟨fun hk => ?_, fun hk => ?_⟩
  · rw [frameFate_accept hpass (by rw [hjob]; exact hk), hjob]
    rfl
  · rw [frameFate_overrun hpass (by rw [hjob]; exact Nat.not_le.2 hk)]
    simp only [setCause, record, List.append_assoc, List.singleton_append]
    rfl

/-! ### One piece of a frame (R232 to R236) -/

theorem rxeStep_of_idle {s : State} (h : s.rxPhase = .idle) : rxeStep s = .next s := by
  unfold rxeStep
  rw [h]

/-- The receive ring with its head advanced (R234). -/
abbrev rxAdvanced (s : State) : RingRegs := { s.regs.rx with head := nextHead s.regs.rx }

/-- Short of the last piece the head advances and the next piece is at hand (R232, R234). -/
theorem afterPiece_of_not_last {job : RxJob} (h : ¬job.j + 1 = job.k) (s : State) :
    afterPiece job s =
      { s with regs := { s.regs with rx := rxAdvanced s }, rxPhase := .storing { job with j := job.j + 1 } } := by
  unfold afterPiece isLastPiece
  exact if_neg (by simpa using h)

/-- The causes that the end of a frame sets: RXT0, and RXDMT0 on a downward crossing of the threshold (R235, R236). -/
theorem endOfFrame_causes (job : RxJob) (g : Regs) :
    g.icr ||| (regMap.icrRxt0 ||| if crossesThreshold job g then regMap.icrRxdmt0 else 0) =
      if job.thr < job.free0 ∧ ringOwned g.rx ≤ job.thr then g.icr ||| 0x90 else g.icr ||| 0x80 := by
  by_cases hc : job.thr < job.free0 ∧ ringOwned g.rx ≤ job.thr
  · rw [if_pos ((crossesThreshold_iff job g).2 hc), if_pos hc]
    rfl
  · rw [if_neg (mt (crossesThreshold_iff job g).1 hc), if_neg hc]
    rfl

/-- The last piece advances the head, and ends the frame (R232, R234 to R236). -/
theorem afterPiece_of_last {job : RxJob} (h : job.j + 1 = job.k) (s : State) :
    afterPiece job s = { s with
      rxPhase := .idle
      regs := { s.regs with
        rx := rxAdvanced s
        icr := if job.thr < job.free0 ∧ ringOwned (rxAdvanced s) ≤ job.thr then s.regs.icr ||| 0x90
          else s.regs.icr ||| 0x80 } } := by
  unfold afterPiece isLastPiece
  rw [if_pos (by simpa using h), ← endOfFrame_causes job { s.regs with rx := rxAdvanced s }]
  rfl

/-- The write-back bytes of the piece at hand (R233). -/
theorem pieceWriteBack_eq (job : RxJob) (s : State) :
    pieceWriteBack job s = toLe 2 (pieceBytes job).length ++ toLe 2 (draw16 s.draws).toNat ++
      [if job.j + 1 = job.k then 0x03 else 0x01, if job.j + 1 = job.k then job.err else 0, 0, 0] := by
  simp only [pieceWriteBack, rxWriteBack_eq, isLastPiece, beq_iff_eq]

/-- Settles O50: the three accesses admitted, the piece is stored; then the head advances, and the last piece ends the frame. -/
theorem pieceStep : Obligations.PieceStep := by
  refine ⟨fun s => rxeStep_of_idle, ?_⟩
  intro s job hp hj d a piece last rx' h1 h2 h3
  have hpiece : piece = pieceBytes job := (pieceBytes_eq job).symm
  have hstep : takeTurn .rxe s = .next (afterPiece job (pieceStored job s)) :=
    (rxeStep_of_storing hp hj).trans (storePiece_of_ok h1 (by rw [← hpiece]; exact h2) h3)
  refine ⟨_, toLe 2 (draw16 s.draws).toNat, pieceWriteBack job s, hstep, ?_, toLe_length 2 _, ?_⟩
  · rw [hpiece]
    exact pieceWriteBack_eq job s
  · rw [hpiece]
    by_cases hlast : job.j + 1 = job.k
    · rw [afterPiece_of_last hlast]
      simp only [last, if_pos hlast]
      rfl
    · rw [afterPiece_of_not_last hlast]
      simp only [last, if_neg hlast]
      rfl

end Sys2Proof.Machine
end

section
/-! PROOFS. The EEPROM read protocol: the EERD rows (R201, R202), EEC's completion step (R203), and what becomes of a read in
progress with an EEPROM and without one (R204, R205, R361). -/

namespace Sys2Proof.Machine

open Config Safety

/-! ### EEC's completion step (R203) -/

/-- EEC after its completion step: DATA is the addressed word, DONE is set, no read is in progress. -/
def eecCompleted (s : State) : Eec :=
  { busy := false, done := true, addr := s.eec.addr, data := some (eepromWord s.platform s.eec.addr) }

theorem eecEnabled_iff (s : State) : eecEnabled s = true ↔ s.eec.busy = true ∧ s.platform.eepromPresent = true :=
  Bool.and_eq_true_iff

theorem eecEnabled_eq_false_iff (s : State) :
    eecEnabled s = false ↔ s.eec.busy = false ∨ s.platform.eepromPresent = false := Bool.and_eq_false_iff

theorem eecStep_of_enabled {s : State} (h : eecEnabled s = true) : eecStep s = .next { s with eec := eecCompleted s } :=
  if_pos h

theorem eecStep_of_not_enabled {s : State} (h : eecEnabled s = false) : eecStep s = .next s :=
  if_neg (Bool.eq_false_iff.1 h)

@[simp] theorem eecEnabled_popTurn (s : State) : eecEnabled (popTurn s) = eecEnabled s := by simp [eecEnabled]

@[simp] theorem eecCompleted_popTurn (s : State) : eecCompleted (popTurn s) = eecCompleted s := by simp [eecCompleted]

/-- Settles O42: EEC's turn is its completion step, whose guard holds. -/
theorem eecCompletionStep : Obligations.EecCompletionStep := fun s hb hp =>
  eecStep_of_enabled ((eecEnabled_iff s).2 ⟨hb, hp⟩)

/-! ### A read of EERD (R26, R201) -/

/-- Three fields moved to their places are the three fields side by side. -/
theorem shiftLeft_or_eq_append (hi : Half) (mid lo : Byte) :
    hi.setWidth 32 <<< 16 ||| mid.setWidth 32 <<< 8 ||| lo.setWidth 32 = hi ++ mid ++ lo := by
  have hhi := hi.isLt
  have hmid := mid.isLt
  have hlo := lo.isLt
  apply BitVec.eq_of_toNat_eq
  simp only [BitVec.toNat_append, BitVec.toNat_or, BitVec.toNat_shiftLeft, BitVec.toNat_setWidth, Nat.shiftLeft_or_distrib,
    ← Nat.shiftLeft_add]
  simp only [Nat.shiftLeft_eq]
  congr 1
  · congr 1 <;> omega
  · omega

/-- EERD as a read shows it: DATA, ADDR, and a low byte of DONE alone. -/
theorem eerdWord_eq_append (e : Eec) (data : Half) :
    eerdWord e data = data ++ e.addr ++ (if e.done then 0x10 else 0 : Byte) := by
  have hdone : (if e.done then regMap.eerdDone else 0) = (if e.done then 0x10 else 0 : Byte).setWidth 32 := by
    cases e.done <;> decide
  rw [← shiftLeft_or_eq_append, ← hdone]
  rfl

theorem eerdWord_data (e : Eec) (data : Half) : (eerdWord e data).extractLsb' 16 16 = data := by
  rw [eerdWord_eq_append, BitVec.extractLsb'_append_eq_of_le (by decide), BitVec.extractLsb'_append_eq_left]

theorem eerdWord_addr (e : Eec) (data : Half) : (eerdWord e data).extractLsb' 8 8 = e.addr := by
  rw [eerdWord_eq_append, BitVec.extractLsb'_append_eq_of_le (by decide), BitVec.extractLsb'_append_eq_right]

theorem eerdWord_low (e : Eec) (data : Half) : (eerdWord e data).extractLsb' 0 8 = if e.done then 0x10 else 0 := by
  rw [eerdWord_eq_append, BitVec.extractLsb'_append_eq_right]

theorem execRdEerd_of_data {s : State} {d : Half} (hd : s.eec.done = true) (hdata : s.eec.data = some d) :
    execRdEerd s = .next (finishRead regMap.eerd (eerdWord s.eec d) s) := by
  rw [execRdEerd, hd, hdata]

theorem execRdEerd_of_no_data {s : State} (h : s.eec.done = false ∨ s.eec.data = none) :
    execRdEerd s = .next (finishRead regMap.eerd (eerdWord s.eec (drawHalf s).1) (drawHalf s).2) := by
  unfold execRdEerd
  split
  · simp_all
  · rfl

/-- Settles O13: the word read is EERD's, with the completed read's data or a draw in DATA. -/
theorem eerdReadShowsProgress : Obligations.EerdReadShowsProgress := by
  intro s
  refine ⟨fun d hd hdata => ⟨_, execRdEerd_of_data hd hdata, eerdWord_data _ d, eerdWord_addr _ d, ?_⟩,
    fun h => ⟨_, execRdEerd_of_no_data h, eerdWord_addr _ _, eerdWord_low _ _⟩⟩
  rw [eerdWord_low, if_pos hd]

/-! ### A write of EERD (R26, R202) -/

/-- ADDR is bits 15:8 of the written word. -/
theorem eerdAddrOf_eq (w : Word) : eerdAddrOf w = w.extractLsb' 8 8 := by
  have hmask : regMap.eerdAddr.extractLsb' regMap.eerdAddrShift 8 = BitVec.allOnes 8 := by decide
  rw [eerdAddrOf, fieldNat, BitVec.ofNat_toNat, BitVec.setWidth_ushiftRight_eq_extractLsb, BitVec.extractLsb'_and, hmask,
    BitVec.and_allOnes]
  rfl

theorem eecAfterWrite_of_start {w : Word} (h : w.getLsbD 0 = true) (e : Eec) :
    eecAfterWrite w e = { busy := true, done := false, addr := w.extractLsb' 8 8, data := e.data } := by
  rw [eecAfterWrite, eerdStart_eq, if_pos h, eerdAddrOf_eq]

theorem eecAfterWrite_of_no_start {w : Word} (h : w.getLsbD 0 = false) (e : Eec) :
    eecAfterWrite w e = { e with addr := w.extractLsb' 8 8 } := by
  rw [eecAfterWrite, eerdStart_eq, if_neg (Bool.eq_false_iff.1 h), eerdAddrOf_eq]

/-- No write of EERD sets DONE. -/
theorem eecAfterWrite_done {e : Eec} (h : e.done = false) (w : Word) : (eecAfterWrite w e).done = false := by
  unfold eecAfterWrite
  split
  · rfl
  · exact h

theorem execWrEerd_of_idle {s : State} (h : s.eec.busy = false) (w : Word) :
    execWrEerd w s = .next (finishWrite regMap.eerd w { s with eec := eecAfterWrite w s.eec }) :=
  if_neg (Bool.eq_false_iff.1 h)

theorem execWrEerd_of_busy {s : State} (h : s.eec.busy = true) (w : Word) :
    execWrEerd w s = .fault (.eepromBusy (writeAccess regMap.eerd) w) := if_pos h

/-- Settles O25: a write while no read is in progress leaves EEC as `eecAfterWrite` says, with START and without. -/
theorem eerdWriteStartsRead : Obligations.EerdWriteStartsRead := by
  intro s w
  refine ⟨decodeOfEncodeIsIdentity (.wrEerd w), fun hb hs => ?_, fun hb hs => ?_, fun hb => execWrEerd_of_busy hb w⟩
  · rw [← eecAfterWrite_of_start hs]
    exact execWrEerd_of_idle hb w
  · rw [← eecAfterWrite_of_no_start hs]
    exact execWrEerd_of_idle hb w

/-! ### Without an EEPROM (R203, R205) -/

/-- Settles O44: of the three things a step can do to EEC, a write of EERD sets no DONE and needs that no read is in progress,
and the completion step needs an EEPROM. -/
theorem absentEepromNeverCompletes : Obligations.AbsentEepromNeverCompletes := by
  refine ⟨fun s t hp hd h => ?_, fun s h => eecStep_of_not_enabled ((eecEnabled_eq_false_iff s).2 h)⟩
  obtain e | ⟨hb, w, e⟩ | ⟨_, hen, _⟩ := step_eec h
  · rw [e]
    exact ⟨hd, id⟩
  · rw [e]
    exact ⟨eecAfterWrite_done hd w, fun hb' => absurd hb' (Bool.eq_false_iff.1 hb)⟩
  · exact absurd ((eecEnabled_iff s).1 hen).2 (Bool.eq_false_iff.1 hp)

/-! ### With an EEPROM, in a weakly fair run (R204, R361) -/

/-- A step from a read in progress with an EEPROM present completes the read if the turn is EEC's; any other turn leaves EEC
alone, because a write of EERD faults (R202). -/
theorem step_eec_of_enabled {s t : State} (hen : eecEnabled s = true) (h : step s = .next t) :
    (nextTurn s = .eec ∧ t.eec = eecCompleted s) ∨ (nextTurn s ≠ .eec ∧ t.eec = s.eec) := by
  by_cases hx : nextTurn s = .eec
  · have hstep : eecStep (popTurn s) = .next t := by simpa [hx, takeTurn] using (step_next h).2
    rw [eecStep_of_enabled (by simpa using hen)] at hstep
    cases hstep
    exact .inl ⟨hx, eecCompleted_popTurn s⟩
  · obtain e | ⟨hb, _, _⟩ | ⟨hx', _, _⟩ := step_eec h
    · exact .inr ⟨hx, e⟩
    · exact absurd ((eecEnabled_iff s).1 hen).1 (Bool.eq_false_iff.1 hb)
    · exact absurd hx' hx

/-- A read in progress in `s` is the same read in `t`: of the same address, from the same EEPROM. -/
def SameRead (s t : State) : Prop := t.eec = s.eec ∧ t.platform = s.platform

theorem SameRead.eecEnabled {s t : State} (h : SameRead s t) : eecEnabled t = eecEnabled s := by
  rw [Machine.eecEnabled, h.1, h.2, Machine.eecEnabled]

theorem SameRead.eecCompleted {s t : State} (h : SameRead s t) : eecCompleted t = eecCompleted s := by
  rw [Machine.eecCompleted, h.1, h.2, Machine.eecCompleted]

/-- At every later point of a run the read is still in progress, or it has completed before. -/
theorem sameRead_or_completed {run : Nat → State} {n : Nat} (hrun : IsRun run) (hen : eecEnabled (run n) = true) {m : Nat}
    (hm : n ≤ m) : SameRead (run n) (run m) ∨ ∃ k, n < k ∧ (run k).eec = eecCompleted (run n) := by
  induction m, hm using Nat.le_induction with
  | base => exact .inl ⟨rfl, rfl⟩
  | succ m hm ih =>
    obtain hsame | hdone := ih
    · obtain ⟨_, e⟩ | ⟨_, e⟩ := step_eec_of_enabled (hsame.eecEnabled.trans hen) (hrun m)
      · exact .inr ⟨m + 1, Nat.lt_succ_of_le hm, e.trans hsame.eecCompleted⟩
      · exact .inl ⟨e.trans hsame.1, (step_extends (hrun m)).platform.trans hsame.2⟩
    · exact .inr hdone

/-- A read in progress with an EEPROM present keeps EEC's completion step enabled until EEC takes it, as weak fairness says. -/
theorem exists_eecCompleted {run : Nat → State} {n : Nat} (hrun : IsRun run) (hfair : WeaklyFair run)
    (hen : eecEnabled (run n) = true) : ∃ k, n < k ∧ (run k).eec = eecCompleted (run n) := by
  by_contra hnever
  have hsame : ∀ m, n ≤ m → SameRead (run n) (run m) := fun m hm =>
    (sameRead_or_completed hrun hen hm).resolve_right hnever
  obtain ⟨m, hm, hturn⟩ := hfair .eec n fun m hm => (hsame m hm).eecEnabled.trans hen
  obtain ⟨_, e⟩ | ⟨hx, _⟩ := step_eec_of_enabled ((hsame m hm).eecEnabled.trans hen) (hrun m)
  · exact hnever ⟨m + 1, Nat.lt_succ_of_le hm, e.trans (hsame m hm).eecCompleted⟩
  · exact hx hturn

/-- Settles O43: EEC completes the read, and then shows DONE and the addressed word. -/
theorem eepromReadEventuallyCompletes : Obligations.EepromReadEventuallyCompletes := by
  intro run n hrun hfair hb hp
  obtain ⟨m, hm, e⟩ := exists_eecCompleted hrun hfair ((eecEnabled_iff _).2 ⟨hb, hp⟩)
  exact ⟨m, hm, by rw [e]; rfl, by rw [e]; rfl⟩

end Sys2Proof.Machine
end

section
/-! PROOFS. The receive ring: the descriptors reserved for a frame in progress stay owned, whatever agent acts (R177, R179, R229,
R238); the driver's configuration accepts every frame (R240); what a piece's step writes to host memory (R232, R233). -/

namespace Sys2Proof.Machine

open Config Safety

/-! ### What the reservation rests on -/

/-- The reservation reads RXE's phase and the receive ring, neither of which taking a turn off the schedule writes. -/
theorem reservationHeld_popTurn {s : State} (hs : ReservationHeld s) : ReservationHeld (popTurn s) := by
  obtain ⟨ts, d, e⟩ := popTurn_eq s
  rw [e]
  exact hs

/-- The frame in progress stays as it is, and as many descriptors are owned as before, or more. -/
theorem reservationHeld_of_ringOwned_le {s t : State} (hs : ReservationHeld s) (hp : t.rxPhase = s.rxPhase)
    (ho : s.rxPhase ≠ .idle → ringOwned s.regs.rx ≤ ringOwned t.regs.rx) : ReservationHeld t := by
  intro job hjob
  rw [hp] at hjob
  obtain ⟨hleft, howned, hsize⟩ := hs job hjob
  exact ⟨hleft, howned.trans (ho (by simp [hjob])), hsize⟩

/-! ### HOST takes no descriptor back (R177, R179) -/

/-- While a frame is stored the receive ring counts as enabled: its base, length and head are not written, and a write of its
tail passes the check that the owned count does not shrink. -/
theorem Effect.ringOwned_le {s t : State} (h : Effect s t) (hp : s.rxPhase ≠ .idle) :
    ringOwned s.regs.rx ≤ ringOwned t.regs.rx := by
  have he : ringEnabled .rx s = true := (ringEnabled_rx_iff s).2 (.inr hp)
  cases h with
  | bal r off w hd | bah r off w hd | len r off w hd | head r off w hd =>
    cases r with
    | rx => exact absurd he (by simp [hd])
    | tx => exact le_rfl
  | tail r off w ht =>
    cases r with
    | rx => exact (tailOK_iff ..).1 (ht he)
    | tx => exact le_rfl
  | _ => exact le_rfl

theorem HostEffect.reservationHeld {s t : State} (h : HostEffect s t) (hs : ReservationHeld s) : ReservationHeld t := by
  cases h with
  | transaction p u hst e => exact reservationHeld_of_ringOwned_le hs e.frame.rxPhase e.ringOwned_le
  | store | own => exact hs

/-! ### An accepted frame finds its descriptors owned (R226 to R230) -/

theorem minFrame_le_of_dropReason_none {f : Frame} {g : Regs} (h : dropReason f g = none) : 64 ≤ f.bytes.length := by
  have hen : g.rctl.getLsbD 1 = true := (rctlEn_eq _).symm.trans (rctlEn_of_dropReason_none h)
  by_contra hlen
  by_cases hacc : FilterAccepts f g
  · rw [dropReason_of_accepted hen hacc, if_pos (Nat.lt_of_not_le hlen)] at h
    cases h
  · rw [dropReason_of_filtered hen hacc] at h
    cases h

/-- Without its frame check sequence a frame that is no runt has bytes left (R226). -/
theorem storedBytes_length_pos {f : Frame} (h : 64 ≤ f.bytes.length) (rctl : Word) : 0 < (storedBytes f rctl).length := by
  unfold storedBytes
  split
  · rw [List.length_take, fcsLen]
    omega
  · omega

theorem pieceCount_pos {l b : Nat} (hl : 0 < l) (hb : 0 < b) : 0 < pieceCount l b := Nat.div_pos (by omega) hb

/-- An accepted frame has at least one piece, no more pieces than owned descriptors, and the buffer size of a legal RCTL. -/
theorem frameArrives_reservationHeld {f : Frame} {s t : State} (h : frameArrives f s = .next t)
    (hl : rctlLegal s.regs.rctl = true) (hs : ReservationHeld s) : ReservationHeld t := by
  obtain rfl | ⟨_, ⟨r, _, rfl⟩ | ⟨_, _, rfl⟩ | ⟨hacc, hk, rfl⟩⟩ := frameArrives_next h
  · exact hs
  · exact hs
  · exact hs
  · have hb : 0 < bufSize s.regs.rctl := bufSize_pos hl
    rintro _ ⟨⟩
    exact ⟨pieceCount_pos (storedBytes_length_pos (minFrame_le_of_dropReason_none hacc) _) hb, hk, hb, rfl⟩

/-! ### A stored piece uses up one owned descriptor (R234) -/

theorem ringOwned_nextHead {x : RingRegs} (hh : x.head.toNat < ringCount x) (ho : 0 < ringOwned x) :
    ringOwned x - 1 ≤ ringOwned { x with head := nextHead x } := by
  have hadv : ringOwned { x with head := nextHead x } =
      if ringCount x ≤ x.tail.toNat then ringCount x else ringOwned x - 1 := by
    calc ringOwned { x with head := nextHead x }
        = ownedCount (ringCount x) ((x.head.toNat + 1) % ringCount x) x.tail.toNat := by
          rw [← nextHead_toNat x (Nat.zero_lt_of_lt hh)]
          rfl
      _ = _ := ownedCount_advance hh ho
  have hle : ringOwned x ≤ ringCount x := ownedCount_le ..
  rw [hadv]
  split <;> omega

/-- The last piece ends the frame; any other leaves one piece fewer to store, and at most one descriptor fewer owned. -/
theorem rxeStep_reservationHeld {s t : State} (h : rxeStep s = .next t) (hr : RingsReady s) (hs : ReservationHeld s) :
    ReservationHeld t := by
  obtain rfl | ⟨job, hp, _, h⟩ := rxeStep_next h
  · exact hs
  · obtain ⟨_, _, _, rfl⟩ := storePiece_next h
    by_cases hlast : job.j + 1 = job.k
    · rw [afterPiece_of_last hlast]
      rintro _ ⟨⟩
    · obtain ⟨hleft, howned, hsize⟩ := hs job hp
      have hhead := ((enableOK_iff .rx s).1 (hr .rx ((ringEnabled_rx_iff s).2 (.inr (by simp [hp]))))).2
      have hadv : ringOwned s.regs.rx - 1 ≤ ringOwned (rxAdvanced s) := ringOwned_nextHead hhead (by omega)
      rw [afterPiece_of_not_last hlast]
      rintro _ ⟨⟩
      have hnext : job.j + 1 < job.k := by omega
      have hrest : job.k - (job.j + 1) ≤ ringOwned (rxAdvanced s) := by omega
      exact ⟨hnext, hrest, hsize⟩

/-! ### Every agent keeps the reservation -/

/-- TXE touches neither the receive ring nor RXE. -/
theorem txeStep_reservationHeld {s t : State} (h : txeStep s = .next t) (hs : ReservationHeld s) : ReservationHeld t := by
  obtain rfl | ⟨_, h⟩ := txeStep_next h
  · exact hs
  · obtain ⟨_, _, acc, hist, ⟨_, rfl⟩ | ⟨_, _, rfl⟩⟩ := sendDesc_next h
    · rw [advanceTdh_eq]
      exact hs
    · rw [advanceTdh_eq]
      exact hs

theorem takeTurn_reservationHeld {x : Turn} {s t : State} (h : takeTurn x s = .next t) (hl : RegistersLegal s)
    (hr : RingsReady s) (hs : ReservationHeld s) : ReservationHeld t := by
  cases x with
  | host => exact (hostStep_effect h).reservationHeld hs
  | eec => obtain rfl | ⟨_, rfl⟩ := eecStep_next h <;> exact hs
  | rxe => exact rxeStep_reservationHeld h hr hs
  | txe => exact txeStep_reservationHeld h hs
  | linkUp => obtain rfl | ⟨_, rfl⟩ := linkUpStep_next h <;> exact hs
  | linkDown => obtain rfl | ⟨_, rfl⟩ := linkDownStep_next h <;> exact hs
  | frame f =>
    obtain ⟨_, _, _, _, hrctl, _⟩ := hl
    exact frameArrives_reservationHeld h hrctl hs
  | otherCauses v => cases h; exact hs

/-- Settles O37: every agent's turn keeps the reservation, given legal registers and ready rings. -/
theorem stepKeepsReservation : Obligations.StepKeepsReservation := by
  intro s t hl hr hs h
  exact takeTurn_reservationHeld (step_next h).2 (registersLegal_popTurn hl) (ringsReady_popTurn hr) (reservationHeld_popTurn hs)

/-! ### The driver's configuration (R240) -/

/-- With BAM, MPE and UPE set each class of destination address passes the filter, whatever ExactFilter is (R223). -/
theorem filterAccepts_of_promiscuous {g : Regs} (hbam : g.rctl.getLsbD 15 = true) (hmpe : g.rctl.getLsbD 4 = true)
    (hupe : g.rctl.getLsbD 3 = true) (f : Frame) : FilterAccepts f g := by
  by_cases hb : ∀ k < 6, f.bytes.getD k (missingByte k) = 0xFF
  · exact .inl ⟨hb, hbam⟩
  · by_cases hm : (f.bytes.getD 0 (missingByte 0)).getLsbD 0 = true
    · exact .inr (.inl ⟨⟨hm, hb⟩, hmpe⟩)
    · exact .inr (.inr (.inl ⟨hb, fun h => hm h.1, hupe⟩))

/-- A tail at or past N gives the device the whole ring (R51). -/
theorem ringOwned_of_count_le_tail {x : RingRegs} (hh : x.head.toNat < ringCount x) (ht : ringCount x ≤ x.tail.toNat) :
    ringOwned x = ringCount x := by
  rw [ringOwned, ownedCount_of_lt hh, if_pos ht]

/-- Settles O49: the driver's RCTL passes every test of an arrival, and its ring of 16 owned descriptors holds the at most 8
pieces. -/
theorem driverConfigurationAcceptsEveryFrame : Obligations.DriverConfigurationAcceptsEveryFrame := by
  intro f s hlink hidle hrctl hlen htail hhead hmin hmax
  have hbit (i : Nat) : s.regs.rctl.getLsbD i = (0x0400803E : Word).getLsbD i := by rw [hrctl]
  have hb : bufSize s.regs.rctl = 2048 := by rw [hrctl]; rfl
  have hcount : ringCount s.regs.rx = 16 := by rw [ringCount, hlen]; rfl
  have howned : ringOwned s.regs.rx = 16 := by
    rw [ringOwned_of_count_le_tail (by rw [hcount]; exact hhead) (by rw [hcount, htail]; decide), hcount]
  have hpieces : ((f.bytes.take (f.bytes.length - 4)).length + 2048 - 1) / 2048 ≤ 8 := by
    rw [List.length_take]
    omega
  have hsecrc : s.regs.rctl.getLsbD 26 = true := hbit 26
  have hfits : ((f.bytes.take (f.bytes.length - 4)).length + 2048 - 1) / 2048 ≤ ringOwned s.regs.rx := by omega
  obtain ⟨hstored, _⟩ := frameAcceptedOrOverrun f s hlink hidle (hbit 1)
    (filterAccepts_of_promiscuous (hbit 15) (hbit 4) (hbit 3) f) hmin hmax (fun _ => hbit 5) (fun _ => hbit 2)
  rw [if_pos hsecrc, hb] at hstored
  exact ⟨_, _, hstored hfits, rfl, rfl, hpieces, rfl⟩

/-! ### What RXE writes to host memory (R232, R233) -/

theorem afterPiece_mem (job : RxJob) (s : State) : (afterPiece job s).mem = s.mem := by
  obtain ⟨c, ph, e⟩ := afterPiece_shape job s
  rw [e]

/-- Settles O51: a piece's step writes memory twice, the piece to its buffer and 8 bytes to the descriptor's upper half. -/
theorem pieceStepMemoryFrame : Obligations.PieceStepMemoryFrame := by
  intro s t job hp hj h x hbuf hdesc
  obtain ⟨_, _, _, rfl⟩ := storePiece_next ((rxeStep_of_storing hp hj).symm.trans h)
  rw [← pieceBytes_eq] at hbuf
  have hback : (pieceWriteBack job s).length ≤ (x - (rxDesc s + 8)).toNat := by
    rw [rxWriteBack_length]
    exact hdesc
  calc memRead (afterPiece job (pieceStored job s)).mem x.toNat
      = memRead (writeBytes (writeBytes s.mem (rxBuffer s) (pieceBytes job)) (rxDesc s + 8) (pieceWriteBack job s)) x.toNat := by
        rw [afterPiece_mem]
        rfl
    _ = memRead (writeBytes s.mem (rxBuffer s) (pieceBytes job)) x.toNat :=
        memRead_writeBytes_other _ _ _ x (ne_of_distance hback)
    _ = memRead s.mem x.toNat := memRead_writeBytes_other _ _ _ x (ne_of_distance hbuf)

end Sys2Proof.Machine
end

section
/-! PROOFS. The transmit engine: TXE's turn when R260's guard fails, and its step for a descriptor whose CMD and accesses are
admitted (R260 to R273). -/

namespace Sys2Proof.Machine

open Config

/-! ### TXE's turn (R260) -/

theorem takeTurn_txe_of_not_enabled {s : State} (h : ¬txeEnabled s = true) : takeTurn .txe s = .next s := if_neg h

theorem takeTurn_txe_of_enabled {s : State} (hen : s.regs.tctl.getLsbD 1 = true)
    (hh : s.regs.tx.head.toNat < ringCount s.regs.tx) (ho : 0 < ringOwned s.regs.tx) : takeTurn .txe s = sendDesc s :=
  txeStep_of_enabled ((txeEnabled_iff s).2 ⟨hen, Nat.ne_zero_of_lt hh, hh, ho⟩)

/-! ### A descriptor whose CMD and accesses are admitted (R261 to R270) -/

/-- The emitted frame, at the bits and the length that R266 and R267 give. -/
theorem finishFrame_eq {tctl : Word} {cmd : Byte} {acc body : List Byte}
    (hbody : body = if tctl.getLsbD 3 then acc ++ List.replicate (60 - acc.length) 0 else acc) :
    finishFrame tctl cmd acc = if cmd.getLsbD 1 then body ++ (fcs body).toList else body := by
  have hpad : padFrame tctl acc = body := by rw [hbody, padFrame, tctlPsp_eq, padLen]
  rw [finishFrame, txdIfcs_eq, hpad]

/-- What the report does to each part of the state, with RS and without. -/
theorem txReport_of_ok_fields {a : Addr} {d : TxDesc} {s : State}
    (h : cmdHas d.cmd regMap.txdRs = true → dmaOK s.platform (a + 12) 1 = true) :
    txReport a d s = .ok { s with
      mem := if cmdHas d.cmd regMap.txdRs then writeBytes s.mem (a + 12) [reportedSta d.sta] else s.mem
      regs := { s.regs with icr := s.regs.icr ||| if cmdHas d.cmd regMap.txdRs then regMap.icrTxdw else 0 }
      history := s.history ++
        if cmdHas d.cmd regMap.txdRs then [.dmaWrite .txe (a + 12) [reportedSta d.sta]] else [] } := by
  rw [txReport_of_ok h]
  cases cmdHas d.cmd regMap.txdRs with
  | false => simp
  | true => rfl

/-- The bytes assembled once the data of the descriptor at TDH is read (R263). -/
abbrev txAssembled (s : State) : List Byte := s.txAcc ++ readBytes s.mem (txCurrent s).addr (txCurrent s).len

/-- The state in which the head advances: descriptor and data read, the frame emitted with EOP, the report written with RS. -/
def txProcessed (s : State) : State :=
  let d := txCurrent s
  let sta := [reportedSta d.sta]
  { s with
    txAcc := if cmdHas d.cmd regMap.txdEop then [] else txAssembled s
    mem := if cmdHas d.cmd regMap.txdRs then writeBytes s.mem (txDescAddr s + 12) sta else s.mem
    regs := { s.regs with icr := s.regs.icr ||| if cmdHas d.cmd regMap.txdRs then regMap.icrTxdw else 0 }
    history := s.history ++ [.dmaRead .txe (txDescAddr s) (readBytes s.mem (txDescAddr s) 16)] ++
      (if 0 < d.len then [.dmaRead .txe d.addr (readBytes s.mem d.addr d.len)] else []) ++
      (if cmdHas d.cmd regMap.txdEop = true ∧ txAssembled s ≠ [] then
        [.frameOut (finishFrame s.regs.tctl d.cmd (txAssembled s))] else []) ++
      (if cmdHas d.cmd regMap.txdRs then [.dmaWrite .txe (txDescAddr s + 12) sta] else []) }

/-- No part of the step stops it: fetch, data, end of packet and report are done, then the head advances. -/
theorem sendDesc_of_ok {s : State} (hfetch : dmaOK s.platform (txDescAddr s) 16 = true)
    (hcmd : cmdHas (txCurrent s).cmd regMap.txdUnmodelled = false)
    (hdata : 0 < (txCurrent s).len → dmaOK s.platform (txCurrent s).addr (txCurrent s).len = true)
    (hsta : cmdHas (txCurrent s).cmd regMap.txdRs = true → dmaOK s.platform (txDescAddr s + 12) 1 = true) :
    sendDesc s = .next (advanceTdh (txProcessed s)) := by
  rw [sendDesc_of_fetch hfetch hcmd, txData_of_ok (by exact hdata)]
  dsimp only
  rw [endOfPacket_eq, txReport_of_ok_fields (by exact hsta)]
  rfl

/-- Settles O54: the turn processes the descriptor, whose fields and CMD bits stand where R113 and R114 put them. -/
theorem admittedDescriptorStep : Obligations.AdmittedDescriptorStep := by
  intro s desc hen hh ho d a len cmd eop rs acc body frame sta h' hdesc hcmd hfetch hdata hsta
  subst hdesc
  have hunmodelled : cmdHas cmd regMap.txdUnmodelled = false :=
    Bool.eq_false_iff.2 fun hc => (txdUnmodelled_iff cmd).1 hc hcmd
  have hframe : finishFrame s.regs.tctl cmd acc = frame := finishFrame_eq rfl
  have hsent : sendDesc s = .next (advanceTdh (txProcessed s)) :=
    sendDesc_of_ok hfetch hunmodelled hdata fun hrs => hsta ((txdRs_eq cmd).symm.trans hrs)
  rw [takeTurn_txe_of_enabled hen hh ho, hsent, advanceTdh_eq, ← hframe]
  simp only [txProcessed, txdEop_eq, txdRs_eq]
  rfl

/-! ### A cleared descriptor, and a turn that passes (R260, R265, R273) -/

/-- A cause that a condition sets leaves ICR as it is where the condition fails (R27, R301). -/
theorem or_cause_if (icr cause : Word) (c : Prop) [Decidable c] :
    (icr ||| if c then cause else 0) = if c then icr ||| cause else icr := by
  split
  · rfl
  · exact BitVec.or_zero

theorem txCurrent_of_cleared {s : State} (hzero : readBytes s.mem (txDescAddr s) 16 = List.replicate 16 0) :
    txCurrent s = { addr := 0, len := 0, cmd := 0, sta := 0 } := by
  rw [txCurrent, regMap_descSize, hzero]
  decide

/-- A cleared descriptor has no data, no EOP and no RS: all that is left of its step before the head advances is the fetch. -/
theorem txProcessed_of_cleared {s : State} (hzero : readBytes s.mem (txDescAddr s) 16 = List.replicate 16 0) :
    txProcessed s = record (.dmaRead .txe (txDescAddr s) (List.replicate 16 0)) s := by
  have hnone (a : Addr) : readBytes s.mem a 0 = [] := rfl
  simp [txProcessed, txCurrent_of_cleared hzero, hzero, hnone, txdEop_eq, txdRs_eq, record]

/-- Settles O53: without its guard the turn passes; of a cleared descriptor the fetch and the head advance are all there is. -/
theorem clearedDescriptorOnlyAdvancesHead : Obligations.ClearedDescriptorOnlyAdvancesHead := by
  refine ⟨fun s hguard => takeTurn_txe_of_not_enabled fun he => ?_, ?_⟩
  · obtain ⟨hen, hn, hh, ho⟩ := (txeEnabled_iff s).1 he
    obtain hen' | hn' | hh' | ho' := hguard
    · exact Bool.false_ne_true (hen'.symm.trans hen)
    · exact hn hn'
    · exact Nat.not_lt.2 hh' hh
    · exact Nat.ne_of_gt ho ho'
  · intro s hen hh ho d h' hfetch hzero
    have hcurrent := txCurrent_of_cleared hzero
    have hsent : sendDesc s = .next (advanceTdh (txProcessed s)) :=
      sendDesc_of_ok hfetch (by rw [hcurrent]; rfl) (by rw [hcurrent]; nofun) (by rw [hcurrent]; nofun)
    rw [takeTurn_txe_of_enabled hen hh ho, hsent, txProcessed_of_cleared hzero, advanceTdh_eq, or_cause_if]
    rfl

end Sys2Proof.Machine
end

section
/-! PROOFS. Interrupts: the interrupt output and its acknowledgment (R56, R303, R304), the causes across the steps of HOST and of
the other agents (R300, R301), and LINK's own steps (R307, R308). -/

namespace Sys2Proof.Machine

open Config

/-! ### The interrupt output (R56, R303, R304) -/

theorem hasAny_iff (w m : Word) : hasAny w m = true ↔ ∃ b < 32, w.getLsbD b = true ∧ m.getLsbD b = true := by
  rw [← Bool.not_eq_false, hasAny_eq_false, BitVec.eq_of_getLsbD_eq_iff]
  simp

theorem int_iff (s : State) :
    s.int = true ↔ ∃ b < 32, s.regs.icr.getLsbD b = true ∧ s.regs.ims.getLsbD b = true :=
  hasAny_iff s.regs.icr s.regs.ims

/-- Write one to clear (R170): a bit is left exactly if it was pending and is not among the acknowledged ones. -/
theorem and_not_getLsbD_iff (icr w : Word) {b : Nat} (hb : b < 32) :
    (icr &&& ~~~w).getLsbD b = true ↔ icr.getLsbD b = true ∧ w.getLsbD b = false := by
  simp [hb]

/-- Settles O28: INT is the test of `int_iff` in the state before and in the state an acknowledgment leaves. -/
theorem interruptOutput : Obligations.InterruptOutput := by
  refine ⟨int_iff, fun s w => ⟨_, rfl, (int_iff _).trans (exists_congr fun b => and_congr_right fun hb => ?_)⟩⟩
  exact (and_congr_left' (and_not_getLsbD_iff s.regs.icr w hb)).trans and_assoc

/-! ### Causes across a step (R300, R301) -/

/-- Settles O29: all a device agent does to ICR is to OR causes into it. -/
theorem deviceStepsKeepCauses : Obligations.DeviceStepsKeepCauses := by
  intro s t h hx b hb
  obtain ⟨hh, _⟩ | ⟨_, e⟩ := step_effect h
  · exact absurd hh hx
  · obtain ⟨c, hr, ht, hregs⟩ := e.regs
    rw [hregs, popTurn_regs, BitVec.getLsbD_or, hb, Bool.true_or]

/-- Of the register transactions only the rows of ICR write it: a read may clear it, a write clears the bits it names. -/
theorem Effect.icr_bit {s t : State} (h : Effect s t) {b : Nat} (hb : t.regs.icr.getLsbD b = true) :
    s.regs.icr.getLsbD b = true := by
  cases h with
  | read off v c d hc =>
    obtain rfl | rfl := hc
    · exact hb
    · exact absurd hb (by simp)
  | icr w => exact (Bool.and_eq_true_iff.1 (BitVec.getLsbD_and.symm.trans hb)).1
  | bal r | bah r | len r | head r | tail r => cases r <;> exact hb
  | _ => exact hb

theorem HostEffect.icr_bit {s t : State} (h : HostEffect s t) {b : Nat} (hb : t.regs.icr.getLsbD b = true) :
    s.regs.icr.getLsbD b = true := by
  cases h with
  | transaction p u hst e => exact e.icr_bit hb
  | store | own => exact hb

/-- Settles O30: HOST's transactions clear causes at most, and its other operations leave the registers alone. -/
theorem hostStepsSetNoCause : Obligations.HostStepsSetNoCause := by
  intro s t h hx b hb
  obtain ⟨_, e⟩ | ⟨hn, _⟩ := step_effect h
  · exact popTurn_regs s ▸ e.icr_bit hb
  · exact absurd hx hn

/-! ### LINK's steps (R307, R308) -/

theorem linkUpEnabled_iff (s : State) :
    linkUpEnabled s = true ↔ s.regs.ctrl.getLsbD 6 = true ∧ s.platform.linkPartner = true ∧ s.linkUp = false := by
  simp [linkUpEnabled, ctrlSlu_eq, and_assoc]

theorem linkUpStep_of_enabled {s : State} (h : linkUpEnabled s = true) :
    linkUpStep s = .next (setCause regMap.icrLsc { s with linkUp := true }) := if_pos h

theorem linkUpStep_of_not_enabled {s : State} (h : ¬linkUpEnabled s = true) : linkUpStep s = .next s := if_neg h

theorem linkDownStep_of_up {s : State} (h : s.linkUp = true) :
    linkDownStep s = .next (setCause regMap.icrLsc { s with linkUp := false }) := if_pos h

theorem linkDownStep_of_down {s : State} (h : s.linkUp = false) : linkDownStep s = .next s :=
  if_neg (Bool.eq_false_iff.1 h)

/-- Settles O45: link up by its guard, link down by the link's state; for the other causes the mask is that of the named six. -/
theorem linkSteps : Obligations.LinkSteps := by
  intro s v
  refine ⟨fun hslu hpartner hdown => linkUpStep_of_enabled ((linkUpEnabled_iff s).2 ⟨hslu, hpartner, hdown⟩),
    fun hguard => linkUpStep_of_not_enabled fun he => ?_, linkDownStep_of_up, linkDownStep_of_down, rfl⟩
  obtain ⟨hslu, hpartner, hdown⟩ := (linkUpEnabled_iff s).1 he
  obtain hslu' | hpartner' | hup := hguard
  · exact Bool.false_ne_true (hslu'.symm.trans hslu)
  · exact Bool.false_ne_true (hpartner'.symm.trans hpartner)
  · exact Bool.false_ne_true (hdown.symm.trans hup)

end Sys2Proof.Machine
end

section
/-! PROOFS. Reset (R340), the quiet machine (R342) and region resolution (R343). -/

namespace Sys2Proof.Machine

open Config Safety

/-- Under a mask that excludes them, bits read 0. -/
theorem and_and_eq_zero {m k : Word} (h : m &&& k = 0) (w : Word) : w &&& m &&& k = 0 := by
  rw [BitVec.and_assoc, h]
  exact BitVec.and_zero

/-! ### The quiet machine: every turn passes, but for LINK's other causes (R307, R342) -/

theorem hostStep_of_no_prog {s : State} (h : s.host.prog = []) : hostStep s = .next s := by
  rw [hostStep, h]

theorem setCause_zero (s : State) : setCause 0 s = s := by
  simp [setCause]

/-- What a turn may do in a quiet state: set causes outside the named six, perhaps none. -/
def SetsOtherCauses (s : State) (r : Result) : Prop := ∃ c : Word, c &&& 0xD7 = 0 ∧ r = .next (setCause c s)

theorem SetsOtherCauses.pass {s : State} {r : Result} (h : r = .next s) : SetsOtherCauses s r :=
  ⟨0, BitVec.zero_and, h.trans (by rw [setCause_zero])⟩

/-- In a quiet state every turn finds its guard failed but LINK's other causes, which have none and are masked (R307). -/
theorem takeTurn_of_quiet {s : State} (h : Quiet s) (x : Turn) : SetsOtherCauses s (takeTurn x s) := by
  obtain ⟨-, hprog, hbusy, hidle, hen, hslu, hdown⟩ := h
  cases x with
  | host => exact .pass (hostStep_of_no_prog hprog)
  | eec => exact .pass (eecStep_of_not_enabled ((eecEnabled_eq_false_iff s).2 (.inl hbusy)))
  | rxe => exact .pass (rxeStep_of_idle hidle)
  | txe => exact .pass (takeTurn_txe_of_not_enabled (by simp [txeEnabled, hen]))
  | linkUp => exact .pass (linkUpStep_of_not_enabled (by simp [linkUpEnabled, hslu]))
  | linkDown => exact .pass (linkDownStep_of_down hdown)
  | frame f => exact .pass (frameArrives_of_not_enabled (.inl hdown))
  | otherCauses v => exact ⟨v &&& ~~~regMap.icrNamed, and_and_eq_zero (by decide) v, rfl⟩

/-- Settles O41: taking a turn off the schedule leaves the machine quiet, and so does setting causes. -/
theorem quietMachineStaysQuiet : Obligations.QuietMachineStaysQuiet := by
  intro s h
  obtain ⟨ts, d, hpop⟩ := popTurn_eq s
  have hquiet : Quiet { s with turns := ts, draws := d } := h
  obtain ⟨c, hc, hturn⟩ := takeTurn_of_quiet hquiet (nextTurn s)
  refine ⟨setCause c { s with turns := ts, draws := d }, c, ?_, hquiet, hc, rfl⟩
  rw [step_of_no_fault h.1, hpop, hturn]

/-! ### Region resolution (R343) -/

/-- The first match among the first `n` places of a list. -/
theorem find?_take_eq_some_iff {α : Type} (l : List α) (n : Nat) (p : α → Bool) (a : α) :
    (l.take n).find? p = some a ↔
      ∃ i < n, l[i]? = some a ∧ p a = true ∧ ∀ j < i, ∀ x, l[j]? = some x → ¬p x = true := by
  rw [List.find?_eq_some_iff_getElem]
  constructor
  · rintro ⟨hp, i, hi, ha, hbefore⟩
    rw [List.length_take] at hi
    refine ⟨i, by omega, ?_, hp, fun j hj x hx => ?_⟩
    · rw [List.getElem_take] at ha
      exact List.getElem?_eq_some_iff.2 ⟨by omega, ha⟩
    · obtain ⟨_, rfl⟩ := List.getElem?_eq_some_iff.1 hx
      simpa using hbefore j hj
  · rintro ⟨i, hi, ha, hp, hbefore⟩
    obtain ⟨hlen, rfl⟩ := List.getElem?_eq_some_iff.1 ha
    refine ⟨hp, i, by rw [List.length_take]; omega, List.getElem_take, fun j hj => ?_⟩
    have := hbefore j hj l[j] (List.getElem?_eq_getElem (by omega))
    simpa using this

/-- The test of R343 on one region. -/
theorem regionTest_iff (r : Addr × Nat) :
    (r.2 == windowSize && decide (lowLimit < r.1.toNat)) = true ↔ r.2 = 131072 ∧ 0xFFFF < r.1.toNat := by
  rw [Bool.and_eq_true, beq_iff_eq, decide_eq_true_iff]
  exact Iff.rfl

/-- Settles O60: the first match among the first six places; its size is fixed by the test. -/
theorem regionResolutionTakesFirstMatch : Obligations.RegionResolutionTakesFirstMatch := by
  intro regions b
  simp only [selectRegion, Option.map_eq_some_iff, find?_take_eq_some_iff, regionTest_iff]
  constructor
  · rintro ⟨⟨_, _⟩, ⟨i, hi, hget, ⟨rfl, hlow⟩, hbefore⟩, rfl⟩
    exact ⟨i, hi, hget, hlow, hbefore⟩
  · rintro ⟨i, hi, hget, hlow, hbefore⟩
    exact ⟨(b, 131072), ⟨i, hi, hget, ⟨rfl, hlow⟩, hbefore⟩, rfl⟩

/-! ### The reset state (R340) -/

/-- The low four bits of a ring's base, as stored, read 0 (R36). -/
theorem dbalMask_low (w : Word) : (w &&& regMap.dbalMask).extractLsb' 0 4 = 0 := by
  rw [BitVec.extractLsb'_and, show regMap.dbalMask.extractLsb' 0 4 = 0 by decide]
  exact BitVec.and_zero

/-- With head and tail equal no descriptor is owned (R51). -/
theorem ownedCount_self (n h : Nat) : ownedCount n h h = 0 := by
  obtain hn | hn := le_or_gt n h
  · exact ownedCount_zero_of_le hn
  · rw [ownedCount_of_lt hn, if_neg (by omega), if_pos le_rfl, Nat.sub_self]

section
variable (v : ResetValues) (p : Platform)

theorem resetWith_registersLegal : RegistersLegal (State.resetWith v p) :=
  ⟨and_and_not v.rdbal _, and_and_not v.tdbal _, and_and_not v.rdlen _, and_and_not v.tdlen _,
    (by decide : rctlLegal 0 = true), (tctlLegal_iff _).2 (and_and_eq_zero (by decide) v.tctl)⟩

/-- EN of TCTL is outside the two fields that R340 leaves unspecified, so neither ring is enabled. -/
theorem resetWith_ringEnabled (r : Ring) : ringEnabled r (State.resetWith v p) = false := by
  cases r with
  | rx => exact ringEnabled_rx_false BitVec.getLsbD_zero rfl
  | tx => exact hasAny_eq_false.2 (and_and_eq_zero (by decide) v.tctl)

theorem resetWith_ringsReady : RingsReady (State.resetWith v p) := fun r hen =>
  absurd hen (Bool.eq_false_iff.1 (resetWith_ringEnabled v p r))

theorem resetWith_reservationHeld : ReservationHeld (State.resetWith v p) := nofun

theorem resetWith_eecConsistent : EecConsistent (State.resetWith v p) := ⟨nofun, nofun⟩

theorem resetWith_slu : (State.resetWith v p).regs.ctrl.getLsbD 6 = false := by
  rw [← ctrlSlu_eq]
  exact hasAny_eq_false.2 (and_and_eq_zero (by decide) v.ctrl)

theorem resetWith_int : (State.resetWith v p).int = false := hasAny_eq_false.2 BitVec.and_zero

end

/-- Settles O39: memory is empty, the registers masked, no ring enabled, RXE and EEC idle. -/
theorem resetMeetsInvariants : Obligations.ResetMeetsInvariants := fun v p =>
  ⟨rfl, resetWith_registersLegal v p, resetWith_ringsReady v p, resetWith_reservationHeld v p, resetWith_eecConsistent v p⟩

/-- Settles O40: the masked registers, the equal cursors and the empty IMS; the other values stand in `State.resetWith`. -/
theorem resetStateOfTheTable : Obligations.ResetStateOfTheTable := fun v p =>
  ⟨resetWith_slu v p, rfl, rfl, and_and_eq_zero (by decide) v.tctl, dbalMask_low v.rdbal, dbalMask_low v.tdbal,
    and_and_eq_zero (by decide) v.rdlen, and_and_eq_zero (by decide) v.tdlen, rfl, rfl, rfl, rfl, rfl, rfl, rfl, rfl, rfl, rfl,
    ownedCount_self _ _, ownedCount_self _ _, resetWith_int v p⟩

end Sys2Proof.Machine
end
